-- ==== Sys2Proof/Word.lean ====
section
/-! DEFINITION. The word types of the engine (spec 00 R5, R6) and their names; every quantity is unsigned. -/

namespace Sys2Proof

/-- A 32-bit word: hash words, working registers, schedule words, round constants (R5, R6). -/
abbrev Word := BitVec 32

/-- A byte of the message, the buffer or the digest (R6). -/
abbrev Byte := BitVec 8

/-- A command word on the command port, `CMD_BITS = 10` (R5, R81). -/
abbrev CmdWord := BitVec 10

/-- The 64 bytes of one block, `BLOCK_BYTES = 64` (R5, R23). -/
abbrev Block := Vector Byte 64

/-- The eight hash words, `N_WORDS = 8` (R5, R21). -/
abbrev HashWords := Vector Word 8

/-- The 32 bytes of a digest, `DIGEST_BYTES = 32` (R5, R168). -/
abbrev Digest := Vector Byte 32

end Sys2Proof
end

