-- ==== Sys2Proof/Syntax.lean ====
section
/-! DEFINITION. The commands of the engine: one constructor per row of spec/opcode_table.json (R80, R83). -/

namespace Sys2Proof

/-- The three commands the host can present (R80). An illegal word is none of them: the decoder refuses it by name. -/
inductive Instr where
  /-- `RESET`: load the initial state (R190). -/
  | reset
  /-- `ABSORB b`: append one byte to the message (R100); `b` is `cmd[7:0]` as is (R82). -/
  | absorb (b : Byte)
  /-- `FINALIZE`: pad, compress the tail, return the digest (R160). -/
  | finalize
  deriving DecidableEq, Repr

end Sys2Proof
end

