-- ==== Sys2Proof/WellFormed.lean ====
section
/-! DEFINITION. What a written command must satisfy to be a command (R82, R87): the range checks of the text form.
An `Instr` needs no check of its own, since its one operand is a byte by its type. -/

namespace Sys2Proof

/-- Every term of `Instr` is well formed: RESET and FINALIZE have no operand and ABSORB takes all 256 bytes (R82). -/
def Instr.wellFormed : Instr → Bool
  | .reset => true
  | .absorb _ => true
  | .finalize => true

/-- A written byte operand is in range; "a value outside 0..255 is an assembly error, not a command" (R87). -/
def byteInRange (n : Nat) : Bool := decide (n < 256)

/-- A value of the raw directive `.word` is in `0..0x3FF` (R87). -/
def wordInRange (n : Nat) : Bool := decide (n < 1024)

/-- A character a text operand may hold: an ASCII code (R87, R88). -/
def asciiInRange (c : Char) : Bool := decide (c.toNat < 128)

/-- A character that may stand in single quotes: printable ASCII, `0x20..0x7E` (R87). -/
def printableAscii (c : Char) : Bool := decide (32 ≤ c.toNat ∧ c.toNat ≤ 126)

end Sys2Proof
end

