-- ==== Sys2Proof/Decode.lean ====
section
/-! DEFINITION. The command decoder, total on 10-bit words (R81 to R86), the encoder, the table's rows, and the reader
of a table word that the host asks for. -/

namespace Sys2Proof

/-- Why a word is illegal, the three cases of R85. -/
inductive Reject where
  /-- (b) `op = 00` with non-zero data: not a RESET. -/
  | resetOperand
  /-- (c) `op = 10` with non-zero data: not a FINALIZE. -/
  | finalizeOperand
  /-- (a) `op = 11`: the unassigned opcode. -/
  | unassignedOp
  deriving DecidableEq, Repr

/-- What the decoder answers (R84): a command, or Illegal with its reason. -/
inductive Decoded where
  | command (i : Instr)
  | illegal (why : Reject)
  deriving DecidableEq, Repr

/-- `op = cmd[9:8]` (R81). -/
def opField (cmd : CmdWord) : BitVec 2 := cmd.extractLsb' 8 2

/-- `data = cmd[7:0]` (R81). -/
def dataField (cmd : CmdWord) : Byte := cmd.extractLsb' 0 8

/-- The decoder of R84; it reads no engine state. -/
def decode (cmd : CmdWord) : Decoded :=
  if opField cmd = 0b00#2 then
    if dataField cmd = 0x00#8 then .command .reset else .illegal .resetOperand
  else if opField cmd = 0b01#2 then .command (.absorb (dataField cmd))
  else if opField cmd = 0b10#2 then
    if dataField cmd = 0x00#8 then .command .finalize else .illegal .finalizeOperand
  else .illegal .unassignedOp

/-- The word `op ++ data` of a command, `cmd = op * 256 + data` (R81, R83). -/
def encode : Instr → CmdWord
  | .reset => 0b00#2 ++ 0x00#8
  | .absorb b => 0b01#2 ++ b
  | .finalize => 0b10#2 ++ 0x00#8

/-- The `match` column of the opcode table for a command's row (R83). -/
def rowMatch : Instr → CmdWord
  | .reset => 0x000#10
  | .absorb _ => 0x100#10
  | .finalize => 0x200#10

/-- The `mask` column of the opcode table for a command's row (R83). -/
def rowMask : Instr → CmdWord
  | .reset => 0x3FF#10
  | .absorb _ => 0x300#10
  | .finalize => 0x3FF#10

/-- The command the decoder answers, if it answers one. -/
def Decoded.toOption : Decoded → Option Instr
  | .command i => some i
  | .illegal _ => none

/-- The command word in the low bits of a table word of `nbits` bits; bits above `nbits` are 0. -/
def tableWord (nbits w : Nat) : CmdWord := BitVec.ofNat 10 (w % 2 ^ nbits)

/-- The command this decoder reads from a word numbered as spec/opcode_table.json numbers it: bit 0 is `cmd[0]`. A
word with a bit above bit 9 is no command word (R81: the length is always 10 bits). -/
def decodeTableWord (nbits w : Nat) : Option Instr :=
  if w % 2 ^ nbits < 1024 then (decode (tableWord nbits w)).toOption else none

end Sys2Proof
end

