-- ==== Sys2Proof/Machine/Engine.lean ====
section
/-! DEFINITION. The state of one engine instance, exactly the rows of R20. -/

namespace Sys2Proof.Machine

/-- The `phase` register (R27): `ABSORBING = 0`, `FINALIZED = 1`. -/
inductive Phase where
  | absorbing
  | finalized
  deriving DecidableEq, Repr

/-- The two causes the `fault` register can hold beside NONE (R28, R200); code 3 does not exist (U17). -/
inductive FaultCause where
  /-- Code 1: the word is none of the 258 legal words (R201). -/
  | illegalCommand
  /-- Code 2: ABSORB or FINALIZE in phase FINALIZED (R202). -/
  | invalidState
  deriving DecidableEq, Repr

/-- The working storage of one compression (R31), written before it is read in every compression (R136). -/
structure Scratch where
  a : Word
  b : Word
  c : Word
  d : Word
  e : Word
  f : Word
  g : Word
  h : Word
  /-- The temporary `T1`. -/
  t1 : Word
  /-- The temporary `T2`. -/
  t2 : Word
  /-- The message schedule `w[0..63]`. -/
  w : Vector Word 64
  /-- The round index, 7 bits, legal values 0..64. -/
  t : BitVec 7
  deriving DecidableEq, Repr

/-- One engine instance holds exactly this state (R20). -/
structure Engine where
  /-- `H[0..7]`, the running digest accumulator (R21). -/
  hash : HashWords
  /-- `buf[0..63]`, bytes awaiting a full block (R23). -/
  buf : Block
  /-- The number of message bytes waiting, and the index of the next store (R24). -/
  fill : BitVec 6
  /-- The bits contained in blocks already compressed (R25). -/
  bits : BitVec 64
  /-- ABSORBING or FINALIZED (R27). -/
  phase : Phase
  /-- The sticky cause register; `none` is the spec's value NONE (R28). -/
  fault : Option FaultCause
  /-- The compression's working storage (R31). -/
  scratch : Scratch
  deriving DecidableEq, Repr

/-- A block from its 64 bytes. -/
@[irreducible] def blockOf (x : Fin 64 → Byte) : Block := Vector.ofFn x

/-- A scratch record from 74 words (`a..h`, `T1`, `T2`, `w[0..63]`) and a round index of 0..64. -/
@[irreducible] def Scratch.ofWords (x : Fin 74 → Word) (r : Fin 65) : Scratch where
  a := x 0
  b := x 1
  c := x 2
  d := x 3
  e := x 4
  f := x 5
  g := x 6
  h := x 7
  t1 := x 8
  t2 := x 9
  w := Vector.ofFn fun i => x ⟨i.val + 10, by omega⟩
  t := BitVec.ofNat 7 r.val

end Sys2Proof.Machine
end

