-- ==== Sys2Proof/Machine/Loop.lean ====
section
/-! DEFINITION. The bounded loop of the spec's pseudocode, "for i in 0..n-1, in increasing order" (R8, R9). -/

namespace Sys2Proof.Machine

/-- The first `k` turns of a loop of `n` turns, index 0 first. -/
def forUpTo {n : Nat} {α : Type} (f : Fin n → α → α) : (k : Nat) → k ≤ n → α → α
  | 0, _, x => x
  | k + 1, h, x => f ⟨k, h⟩ (forUpTo f k (Nat.le_of_succ_le h) x)

/-- `for i in [0, n): x <- f i x` (R8). -/
def forAll (n : Nat) {α : Type} (f : Fin n → α → α) (x : α) : α := forUpTo f n (Nat.le_refl n) x

end Sys2Proof.Machine
end

