-- ==== Sys2Proof/Machine/Operands.lean ====
section
/-! DEFINITION. The accesses of the block buffer, the only data memory (R50, R56), all big-endian (R51), and its view
as (address, byte) cells (log entry 3). No index is out of range (R54). -/

namespace Sys2Proof.Machine

/-- `MemWrite(k, 1, b)` at the cursor or at the padding position: `buf[k] <- b` (R59, R162). -/
def bufStore (buf : Block) (k : BitVec 6) (b : Byte) : Block := buf.set k.toNat b k.isLt

/-- The zero-fill stores `for k in [lo, hi): buf[k] <- 0x00` (R163, R164). -/
@[irreducible] def bufZeroFill (buf : Block) (lo hi : Nat) : Block :=
  Vector.ofFn fun k => if lo ≤ k.val ∧ k.val < hi then 0x00#8 else buf[k]

/-- Byte `j` of the length field, `totalBits[63-8j : 56-8j]` (R58). -/
def lengthByte (totalBits : BitVec 64) (j : Nat) : Byte := totalBits.extractLsb' (56 - 8 * j) 8

/-- The length store `MemWrite(56, 8, totalBits)` (R58, R166). -/
@[irreducible] def bufStoreLength (buf : Block) (totalBits : BitVec 64) : Block :=
  Vector.ofFn fun k => if 56 ≤ k.val then lengthByte totalBits (k.val - 56) else buf[k]

/-- The word load `MemRead(4*i, 4)`: `buf[4*i]` is the most significant byte (R57). -/
@[irreducible] def bufLoadWord (buf : Block) (i : Fin 16) : Word :=
  buf[4 * i.val] ++ buf[4 * i.val + 1] ++ buf[4 * i.val + 2] ++ buf[4 * i.val + 3]

/-- The buffer as (address, byte) cells, addresses rising; every address of the space is listed. -/
def bufCells (buf : Block) : List Host.Cell := (List.finRange 64).map fun k => (k.val, buf[k])

/-- The canonical form of the cells: exactly the addresses 0..63, in order (R50). -/
abbrev Memory.wf (cells : List Host.Cell) : Prop := cells.map Prod.fst = List.range 64

end Sys2Proof.Machine
end

