-- ==== Sys2Proof/Machine/RoundFunctions.lean ====
section
/-! DEFINITION. Word arithmetic and the six round functions (R120 to R128); the spec's Greek names in words: `bigSigma`
is the upper-case letter, `smallSigma` the lower-case one. -/

namespace Sys2Proof.Machine

/-- Addition modulo 2^32; the carry is recorded nowhere (R120). -/
def add32 (x y : Word) : Word := x + y

/-- 32-bit circular right rotation, for `n` in 1..31 (R121); what it is outside is a DESIGN CHOICE, safe (log entry
12). -/
def rotr (x : Word) (n : Nat) : Word := (x >>> n) ||| (x <<< (32 - n))

/-- Logical right shift (R122). -/
def shr (x : Word) (n : Nat) : Word := x >>> n

/-- `Ch` (R123). -/
def ch (e f g : Word) : Word := (e &&& f) ^^^ (~~~e &&& g)

/-- `Maj` (R124). -/
def maj (a b c : Word) : Word := (a &&& b) ^^^ (a &&& c) ^^^ (b &&& c)

/-- `Σ0`, applied to `a` (R125). -/
def bigSigma0 (x : Word) : Word := rotr x 2 ^^^ rotr x 13 ^^^ rotr x 22

/-- `Σ1`, applied to `e` (R126). -/
def bigSigma1 (x : Word) : Word := rotr x 6 ^^^ rotr x 11 ^^^ rotr x 25

/-- `σ0`, in the message schedule; its third term is a shift (R127). -/
def smallSigma0 (x : Word) : Word := rotr x 7 ^^^ rotr x 18 ^^^ shr x 3

/-- `σ1`, in the message schedule; its third term is a shift (R128). -/
def smallSigma1 (x : Word) : Word := rotr x 17 ^^^ rotr x 19 ^^^ shr x 10

/-- The sum of a schedule word from its four earlier words `w[i-16]`, `w[i-7]`, `w[i-15]`, `w[i-2]` (R130). -/
def scheduleSum (w16 w7 w15 w2 : Word) : Word :=
  add32 (add32 (add32 w16 w7) (smallSigma0 w15)) (smallSigma1 w2)

/-- `T1` of a round (R132). -/
def roundT1 (e f g h k w : Word) : Word := add32 (add32 (add32 (add32 h (bigSigma1 e)) (ch e f g)) k) w

/-- `T2` of a round (R132). -/
def roundT2 (a b c : Word) : Word := add32 (bigSigma0 a) (maj a b c)

end Sys2Proof.Machine
end

