-- ==== Sys2Proof/Machine/Compression.lean ====
section
/-! DEFINITION. `Compress()` on the scratch registers, statement for statement as R135 writes it. -/

namespace Sys2Proof.Machine

/-- `w[i] <- MemRead(4*i, 4)`, `i` in 0..15 (R129). -/
def loadScheduleWord (buf : Block) (i : Fin 16) (sc : Scratch) : Scratch :=
  { sc with w := sc.w.set i.val (bufLoadWord buf i) }

/-- `w[i] <- w[i-16] + w[i-7] + σ0(w[i-15]) + σ1(w[i-2])` for `i = 16 + j`, `j` in 0..47 (R130). -/
def expandScheduleWord (j : Fin 48) (sc : Scratch) : Scratch :=
  { sc with
    w := sc.w.set (j.val + 16) (scheduleSum sc.w[j.val] sc.w[j.val + 9] sc.w[j.val + 1] sc.w[j.val + 14]) }

/-- `(a, ..., h) <- (H[0], ..., H[7])`, before round 0 (R131). -/
def loadWorking (hash : HashWords) (sc : Scratch) : Scratch :=
  { sc with a := hash[0], b := hash[1], c := hash[2], d := hash[3],
            e := hash[4], f := hash[5], g := hash[6], h := hash[7], t := 0#7 }

/-- Round `t`: the temporaries (R132), then the eight registers at once (R133). When the round index is written is
DEDUCED, safe (log entry 14). -/
def compressRound (t : Fin 64) (sc : Scratch) : Scratch :=
  let t1 := roundT1 sc.e sc.f sc.g sc.h (kRom t) sc.w[t.val]
  let t2 := roundT2 sc.a sc.b sc.c
  { sc with t1 := t1, t2 := t2,
            h := sc.g, g := sc.f, f := sc.e, e := add32 sc.d t1,
            d := sc.c, c := sc.b, b := sc.a, a := add32 t1 t2,
            t := BitVec.ofNat 7 (t.val + 1) }

/-- `H[i] <- add32(H[i], (a, ..., h)[i])` (R134). -/
def feedForward (hash : HashWords) (sc : Scratch) : HashWords :=
  #v[add32 hash[0] sc.a, add32 hash[1] sc.b, add32 hash[2] sc.c, add32 hash[3] sc.d,
     add32 hash[4] sc.e, add32 hash[5] sc.f, add32 hash[6] sc.g, add32 hash[7] sc.h]

/-- The message schedule of a block in `w[0..63]` (R129, R130). -/
def loadSchedule (buf : Block) (sc : Scratch) : Scratch :=
  forAll 48 expandScheduleWord (forAll 16 (loadScheduleWord buf) sc)

/-- The scratch registers after round 63 (R131 to R133). -/
def runRounds (hash : HashWords) (sc : Scratch) : Scratch := forAll 64 compressRound (loadWorking hash sc)

/-- `Compress()` from the scratch registers as they stand: the scratch registers and `H` after it (R135). -/
@[irreducible] def compressRun (sc : Scratch) (hash : HashWords) (buf : Block) : Scratch × HashWords :=
  let done := runRounds hash (loadSchedule buf sc)
  (done, feedForward hash done)

end Sys2Proof.Machine
end

