-- ==== Sys2Proof/Config.lean ====
section
/-! DEFINITION. What the spec leaves open, as constants without a body (log entries 4, 6, 7, 8): nothing can evaluate
them, so every statement about the machine holds whatever they are. A free value is applied to the draw counter and to
the engine as it stands, so that neither two steps nor two runs are forced to agree on it. -/

namespace Sys2Proof.Config

open Sys2Proof.Machine

/-- The unspecified buffer byte `k` right after power-on (R34, R231). -/
opaque powerOnByte : Fin 64 → Byte

/-- The unspecified scratch words right after power-on (R34, R231). -/
opaque powerOnWord : Fin 74 → Word

/-- The unspecified round index right after power-on, within its legal values (R20, R34). -/
opaque powerOnRound : Fin 65

/-- The unspecified buffer byte `k` after a hardware reset, which may have cut a command short (R230, R231). -/
opaque resetByte (draw : Nat) (e : Engine) (interrupted : Option CmdWord) : Fin 64 → Byte

/-- The unspecified scratch words after a hardware reset (R230, R231). -/
opaque resetWord (draw : Nat) (e : Engine) (interrupted : Option CmdWord) : Fin 74 → Word

/-- The unspecified round index after a hardware reset (R230, R231). -/
opaque resetRound (draw : Nat) (e : Engine) (interrupted : Option CmdWord) : Fin 65

/-- The unspecified scratch words after a command that compressed (R31). -/
opaque scratchWord (draw : Nat) (e : Engine) : Fin 74 → Word

/-- The unspecified round index after a command that compressed (R31). -/
opaque scratchRound (draw : Nat) (e : Engine) : Fin 65

/-- The unspecified buffer byte `k` after an accepted FINALIZE (R36). -/
opaque consumedByte (draw : Nat) (e : Engine) : Fin 64 → Byte

/-- The unspecified fill cursor after an accepted FINALIZE, still within 0..63 (R36). -/
opaque consumedFill (draw : Nat) (e : Engine) : BitVec 6

/-- The unspecified bit counter after an accepted FINALIZE, as a number of blocks: it stays a multiple of 512 (R36). -/
opaque consumedBlocks (draw : Nat) (e : Engine) : BitVec 55

/-- The unspecified byte `k` on the digest output while `digest_valid = 0` (R181). -/
opaque invalidDigestByte (draw : Nat) (e : Engine) : Fin 32 → Byte

end Sys2Proof.Config
end

