-- ==== Sys2Proof/Machine/State.lean ====
section
/-! DEFINITION. The state of the machine: one engine instance (R20), its response port (R90), and the model's own two
fields (what the host presents next, and the counter that feeds the free values); the reasons a step could stop; reset. -/

namespace Sys2Proof.Machine

/-- The response to a command word (R90); `rsp_kind = 3` does not exist (U17). -/
inductive Response where
  /-- `OK`, from an accepted RESET or ABSORB. -/
  | ok
  /-- `DIGEST(d)`, from an accepted FINALIZE. -/
  | digest (d : Digest)
  /-- `FAULT(code)`, from any refused command; the code is the value of `fault` after the step (R206). -/
  | fault (code : FaultCause)
  deriving DecidableEq, Repr

/-- What the host can do to the engine between responses (R10, R230). -/
inductive HostEvent where
  /-- Present a 10-bit command word, legal or not (R81). -/
  | command (cmd : CmdWord)
  /-- Assert the hardware reset, at a command boundary (`none`) or while the given command is in progress (R230). -/
  | hardwareReset (interrupted : Option CmdWord)
  deriving DecidableEq, Repr

/-- The machine: `Engine` holds `hash`, `buf`, `fill`, `bits`, `phase`, `fault`, `scratch` (R20). -/
structure State extends Engine where
  /-- The response port (R90): the response of the step just made, `none` where that step produced none. -/
  response : Option Response
  /-- The MODEL's own field: what the host presents from here on, next first (log entry 1). -/
  host : List HostEvent
  /-- The MODEL's own field: how many host events have been taken, the argument of every free value (log entry 5). -/
  draws : Nat
  deriving DecidableEq, Repr

/-- The reasons the machine stops with a fault: there is none. R10, R207: the step is total; a command fault of R200 is
a NEXT state with the `fault` register written, not a stop (DEDUCED, safe: log entry 13). Nobody raises a value of
this type. -/
inductive Fault where
  deriving DecidableEq, Repr

/-- The reasons an instruction has no meaning. -/
inductive Refusal where
  /-- An arm of `exec` whose instruction is not modelled yet; no arm raises it. Safe: it stops. -/
  | notModelled (mnemonic : String)
  deriving DecidableEq, Repr

/-- The machine right after the hardware reset (R34, R230): `H = IV`, `fill = 0`, `bits = 0`, ABSORBING, no fault. The
buffer and the scratch registers are unspecified (R231): opaque constants of `Config` (log entry 4). -/
def State.reset : State where
  hash := iv
  buf := blockOf Config.powerOnByte
  fill := 0#6
  bits := 0#64
  phase := .absorbing
  fault := none
  scratch := Scratch.ofWords Config.powerOnWord Config.powerOnRound
  response := none
  host := []
  draws := 0

end Sys2Proof.Machine
end

