-- ==== Sys2Proof/Machine/Ops.lean ====
section
/-! DEFINITION. The named operations every command is made of: the response, taking a command fault (R203), the checks
before a command (R207), the buffer stores, `Compress()` (R135), what is left unspecified (R31, R36), the hardware
reset (R230), and taking what the host presents. -/

namespace Sys2Proof.Machine

/-- `respond(r)` (R9, R90). -/
def State.respond (r : Response) (s : State) : State := { s with response := some r }

/-- `raise <Fault>(code)`: the `fault` register takes the code, the response is `FAULT(code)`, and nothing else changes
(R203, R204). -/
def State.raise (c : FaultCause) (s : State) : State := { s with fault := some c, response := some (.fault c) }

/-- Fault-stop: a recorded fault `c` refuses the command with `FAULT(c)` and changes nothing (R205, R206). -/
def State.refuse (c : FaultCause) (s : State) : State := s.respond (.fault c)

/-- The checks before ABSORB and FINALIZE, in the order of R207: a recorded fault refuses; phase FINALIZED raises
INVALID_STATE (R202); otherwise the command has its effect. -/
def State.whenAbsorbing (effect : State → State) (s : State) : State :=
  match s.fault with
  | some c => s.refuse c
  | none =>
    match s.phase with
    | .finalized => s.raise .invalidState
    | .absorbing => effect s

/-- An illegal word: a recorded fault refuses it, otherwise it raises ILLEGAL_COMMAND (R201, R205, R207). -/
def State.illegalWord (s : State) : State :=
  match s.fault with
  | some c => s.refuse c
  | none => s.raise .illegalCommand

/-- `buf[k] <- b` (R59, R162). -/
def State.storeByte (k : BitVec 6) (b : Byte) (s : State) : State := { s with buf := bufStore s.buf k b }

/-- `for k in [lo, hi): buf[k] <- 0x00` (R163, R164). -/
def State.zeroFill (lo hi : Nat) (s : State) : State := { s with buf := bufZeroFill s.buf lo hi }

/-- `MemWrite(56, 8, totalBits)` (R166). -/
def State.storeLength (totalBits : BitVec 64) (s : State) : State := { s with buf := bufStoreLength s.buf totalBits }

/-- `Compress()`: reads `buf` and `H`, writes `H` and the scratch registers (R135). -/
def State.compress (s : State) : State :=
  { s with
    scratch := (compressRun s.scratch s.hash s.buf).1
    hash := (compressRun s.scratch s.hash s.buf).2 }

/-- Between commands the scratch registers of a compression are unspecified: free values (R31, log entry 6). -/
def State.releaseScratch (s : State) : State :=
  { s with scratch := Scratch.ofWords (Config.scratchWord s.draws s.toEngine) (Config.scratchRound s.draws s.toEngine) }

/-- After an accepted FINALIZE `buf`, `fill` and `bits` are unspecified within their invariants: free values (R36,
log entry 6). -/
def State.consume (s : State) : State :=
  { s with
    buf := blockOf (Config.consumedByte s.draws s.toEngine)
    fill := Config.consumedFill s.draws s.toEngine
    bits := BitVec.ofNat 64 (512 * (Config.consumedBlocks s.draws s.toEngine).toNat) }

/-- The five registers a reset writes (R34, R190). -/
def State.loadInitial (s : State) : State :=
  { s with hash := iv, fill := 0#6, bits := 0#64, phase := .absorbing, fault := none }

/-- The hardware reset: the reset state of R34 with `buf` and the scratch registers unspecified, and no response, the
interrupted command's included (R230, R231, log entry 7). -/
def State.hardwareReset (interrupted : Option CmdWord) (s : State) : State :=
  { s.loadInitial with
    buf := blockOf (Config.resetByte s.draws s.toEngine interrupted)
    scratch := Scratch.ofWords (Config.resetWord s.draws s.toEngine interrupted)
      (Config.resetRound s.draws s.toEngine interrupted)
    response := none }

/-- Take the event the host presents: the rest stays, and the draw counter advances (log entries 1, 5). -/
def State.take (rest : List HostEvent) (s : State) : State := { s with host := rest, draws := s.draws + 1 }

/-- Nothing is presented: the engine is idle and holds all its state (R213); a response is delivered once (R237, log
entry 2). -/
def State.idle (s : State) : State := { s with response := none }

end Sys2Proof.Machine
end

