-- ==== Sys2Proof/Machine/Absorption.lean ====
section
/-! DEFINITION. The meaning of ABSORB (R100 to R105). -/

namespace Sys2Proof.Machine

/-- The completing step, when the stored byte is the 64th of its block: compress, `fill <- 0`, `bits <- bits + 512`
modulo 2^64 (R100, R103). -/
def State.completeBlock (s : State) : State :=
  let done := s.compress
  { done with fill := 0#6, bits := done.bits + 512#64 }

/-- ABSORB's effect in phase ABSORBING with no fault (R100). -/
def State.absorbByte (b : Byte) (s : State) : State :=
  let stored := s.storeByte s.fill b
  if s.fill = 63#6 then (stored.completeBlock.releaseScratch).respond .ok
  else { stored with fill := s.fill + 1#6 }.respond .ok

/-- `ABSORB b` (R100): the checks of R207, then the effect. -/
def execAbsorb (b : Byte) (s : State) : Host.Outcome State Fault Refusal := .next (s.whenAbsorbing (State.absorbByte b))

end Sys2Proof.Machine
end

