-- ==== Sys2Proof/Machine/Digest.lean ====
section
/-! DEFINITION. Digest serialisation (R168) and the hexadecimal rendering (R182, R183), pure functions. -/

namespace Sys2Proof.Machine

/-- `d[4i + j] = (H[i] >> (24 - 8j)) & 0xFF` (R168). -/
@[irreducible] def serialize (hash : HashWords) : Digest :=
  Vector.ofFn fun k => (hash[k.val / 4] >>> (24 - 8 * (k.val % 4))).setWidth 8

/-- The ASCII code of a hex digit, lowercase: `0x30 + v` up to 9, `0x57 + v` from 10 (R183). -/
def hexDigit (v : BitVec 4) : Byte := if v.toNat ≤ 9 then 0x30#8 + v.setWidth 8 else 0x57#8 + v.setWidth 8

/-- `s[2k] = hexdigit(d[k][7:4])`, `s[2k+1] = hexdigit(d[k][3:0])` (R182). -/
@[irreducible] def toHex (d : Digest) : Vector Byte 64 :=
  Vector.ofFn fun p =>
    if p.val % 2 = 0 then hexDigit (d[p.val / 2].extractLsb' 4 4) else hexDigit (d[p.val / 2].extractLsb' 0 4)

end Sys2Proof.Machine
end

