-- ==== Sys2Proof/Machine/Finalization.lean ====
section
/-! DEFINITION. The meaning of FINALIZE (R160 to R171). -/

namespace Sys2Proof.Machine

/-- `totalBits = (bits + 8 * zext_64(n)) mod 2^64`, taken before any padding (R165). -/
def totalBits (bits : BitVec 64) (n : BitVec 6) : BitVec 64 := bits + 8#64 * n.setWidth 64

/-- The padding after the byte `0x80` (R163, R164): zeros up to index 56, and before that, for a tail of 56 bytes or
more, zeros up to the block's end and an extra compression, which leaves `bits` alone (R165). -/
def State.padTail (n : Nat) (s : State) : State :=
  if n < 56 then s.zeroFill (n + 1) 56 else ((s.zeroFill (n + 1) 64).compress).zeroFill 0 56

/-- The registers when FINALIZE has run its last compression (R161 to R167). -/
def State.padAndCompress (s : State) : State :=
  ((((s.storeByte s.fill 0x80#8).padTail s.fill.toNat).storeLength (totalBits s.bits s.fill))).compress

/-- FINALIZE's effect in phase ABSORBING with no fault: padding and compression, then phase FINALIZED and the digest
(R168, R169); `buf`, `fill`, `bits` and the scratch registers are unspecified afterwards (R36, R31). -/
def State.finalizeMessage (s : State) : State :=
  let done := s.padAndCompress
  { done.consume.releaseScratch with phase := .finalized }.respond (.digest (serialize done.hash))

/-- `FINALIZE` (R160): the checks of R207, then the effect. -/
def execFinalize (s : State) : Host.Outcome State Fault Refusal := .next (s.whenAbsorbing State.finalizeMessage)

end Sys2Proof.Machine
end

