-- ==== Sys2Proof/Machine/Reset.lean ====
section
/-! DEFINITION. The meaning of RESET (R190). -/

namespace Sys2Proof.Machine

/-- `RESET`: accepted in every state; `H <- IV`, `fill`, `bits`, `phase`, `fault` at their initial values, `buf` and the
scratch registers not written (R190, log entry 15), response OK (R191). -/
def execReset (s : State) : Host.Outcome State Fault Refusal := .next (s.loadInitial.respond .ok)

end Sys2Proof.Machine
end

