-- ==== Sys2Proof/Machine/Step.lean ====
section
/-! DEFINITION. One step of the machine: what the host presents next, carried out (R10, R207), and the host's placing of
one command word. -/

namespace Sys2Proof.Machine

/-- One presented command word: decoded without reading state, then executed or refused by name (R84, R207). -/
def runCommand (cmd : CmdWord) (s : State) : Host.Outcome State Fault Refusal :=
  match Sys2Proof.decode cmd with
  | .command i => exec i s
  | .illegal _ => .next s.illegalWord

/-- One step: take the host's next event; a command word runs (R207), a hardware reset resets (R230), and with nothing
presented the engine is idle (R213). -/
def step (s : State) : Host.Outcome State Fault Refusal :=
  match s.host with
  | [] => .next s.idle
  | .command cmd :: rest => runCommand cmd (s.take rest)
  | .hardwareReset interrupted :: rest => .next ((s.take rest).hardwareReset interrupted)

/-- `s` with the given word presented next: the engine fetches nothing, the host's next word is what it runs (R30, log
entry 1). -/
def State.withFetchWord (s : State) (nbits w : Nat) : State :=
  { s with host := .command (tableWord nbits w) :: s.host }

end Sys2Proof.Machine
end

