-- ==== Sys2Proof/Machine/Assembler.lean ====
section
/-! DEFINITION. The textual form of command sequences (R87), the pseudo-commands and their expansions (R88), and the
mapping of the source's calls onto command words (R91). -/

namespace Sys2Proof.Machine

/-- One line of a program (R87, R88). Operands are naturals as written, so that a value out of range can be written and
is refused (`lineInRange`). -/
inductive SourceLine where
  | blank
  | reset
  | absorb (b : Nat)
  | finalize
  /-- `.word <value>`, the only way to write an illegal word. -/
  | word (v : Nat)
  | absorbN (bs : List Nat)
  | absorbS (text : List Char)
  | absorbR (b k : Nat)
  | hash (bs : List Nat)
  | hashS (text : List Char)
  deriving DecidableEq, Repr

/-- The range checks of R87 on a line: bytes in 0..255, raw words in 0..0x3FF, text in ASCII. -/
def lineInRange : SourceLine → Bool
  | .blank => true
  | .reset => true
  | .absorb b => byteInRange b
  | .finalize => true
  | .word v => wordInRange v
  | .absorbN bs => bs.all byteInRange
  | .absorbS text => text.all asciiInRange
  | .absorbR b _ => byteInRange b
  | .hash bs => bs.all byteInRange
  | .hashS text => text.all asciiInRange

/-- The ASCII codes of a text (R88, R183). -/
def textBytes (text : List Char) : List Nat := text.map Char.toNat

/-- `ABSORB b0, ..., ABSORB b(k-1)` (R88); no command for `k = 0` (R101). -/
def absorbCommands (bs : List Nat) : List Instr := bs.map fun b => .absorb (BitVec.ofNat 8 b)

/-- The words of a line that passed its range checks (R88). -/
def expandInRange : SourceLine → List CmdWord
  | .blank => []
  | .reset => [encode .reset]
  | .absorb b => [encode (.absorb (BitVec.ofNat 8 b))]
  | .finalize => [encode .finalize]
  | .word v => [BitVec.ofNat 10 v]
  | .absorbN bs => (absorbCommands bs).map encode
  | .absorbS text => (absorbCommands (textBytes text)).map encode
  | .absorbR b k => (absorbCommands (List.replicate k b)).map encode
  | .hash bs => [encode .reset] ++ (absorbCommands bs).map encode ++ [encode .finalize]
  | .hashS text => [encode .reset] ++ (absorbCommands (textBytes text)).map encode ++ [encode .finalize]

/-- The expansion of a line, or `none` for an assembly error (R87, R88). -/
def expandLine (line : SourceLine) : Option (List CmdWord) :=
  if lineInRange line then some (expandInRange line) else none

/-- Words followed by words; one assembly error spoils both. -/
def joinWords : Option (List CmdWord) → Option (List CmdWord) → Option (List CmdWord)
  | some ws, some more => some (ws ++ more)
  | some _, none => none
  | none, _ => none

/-- The words of a program, line after line (R87). -/
def expandProgram : List SourceLine → Option (List CmdWord)
  | [] => some []
  | line :: rest => joinWords (expandLine line) (expandProgram rest)

/-- The words of a whole message, `HASH` of its bytes (R88, R91, R233). -/
def messageWords (m : List Byte) : List CmdWord :=
  [encode .reset] ++ m.map (fun b => encode (.absorb b)) ++ [encode .finalize]

/-- The host presents these words, in order, after what it was about to present (R62, R235). -/
def State.present (words : List CmdWord) (s : State) : State :=
  { s with host := s.host ++ words.map HostEvent.command }

/-- A token of a line: a mnemonic or directive, a number, a character in single quotes, a text in double quotes, or a
comma (R87, R88). -/
inductive Token where
  | name (letters : List Char)
  | number (n : Nat)
  | char (c : Char)
  | text (cs : List Char)
  | comma
  deriving DecidableEq, Repr

/-- The value of a hexadecimal digit. -/
def hexValue (c : Char) : Option Nat :=
  if '0'.toNat ≤ c.toNat ∧ c.toNat ≤ '9'.toNat then some (c.toNat - '0'.toNat)
  else if 'a'.toNat ≤ c.toNat ∧ c.toNat ≤ 'f'.toNat then some (c.toNat - 'a'.toNat + 10)
  else if 'A'.toNat ≤ c.toNat ∧ c.toNat ≤ 'F'.toNat then some (c.toNat - 'A'.toNat + 10)
  else none

/-- The value of digits in a base, most significant first; `none` for a character that is no digit of it. -/
def digitsValue (base : Nat) : List Char → Nat → Option Nat
  | [], acc => some acc
  | c :: cs, acc =>
    match hexValue c with
    | some v => if v < base then digitsValue base cs (acc * base + v) else none
    | none => none

/-- A word of letters or digits: `0x` literals, decimal literals, otherwise a name (R87). That a literal may have any
number of digits, leading zeros included, is a DESIGN CHOICE, unsafe for program text only (log entry 11). -/
def atomToken (letters : List Char) : Option Token :=
  match letters with
  | '0' :: 'x' :: d :: ds => (digitsValue 16 (d :: ds) 0).map .number
  | c :: cs =>
    if '0'.toNat ≤ c.toNat ∧ c.toNat ≤ '9'.toNat then (digitsValue 10 (c :: cs) 0).map .number
    else some (.name (c :: cs))
  | [] => none

/-- Where the reader of a line stands. -/
inductive LexMode where
  | gap
  /-- Inside a word; its letters, the last first. -/
  | atom (rev : List Char)
  /-- After an opening single quote. -/
  | quoteOpen
  /-- After the character of a single-quoted literal. -/
  | quoteChar (c : Char)
  /-- Inside double quotes; its characters, the last first. -/
  | text (rev : List Char)
  deriving DecidableEq, Repr

/-- Put a token before the tokens that follow. -/
def consToken (t : Option Token) (rest : Option (List Token)) : Option (List Token) :=
  match t, rest with
  | some t, some ts => some (t :: ts)
  | _, _ => none

/-- The tokens of one line; `;` outside quotes starts a comment (R87). That a token may follow a closing quote or a comma
with no blank between, and that no quote may follow a letter or digit so, is a DESIGN CHOICE, unsafe for program text only
(log entry 11). -/
def lexLine : LexMode → List Char → Option (List Token)
  | .gap, [] => some []
  | .atom rev, [] => consToken (atomToken rev.reverse) (some [])
  | .quoteOpen, [] => none
  | .quoteChar _, [] => none
  | .text _, [] => none
  | .gap, c :: cs =>
    if c = ';' then some []
    else if c = ' ' ∨ c = '\t' ∨ c = '\r' then lexLine .gap cs
    else if c = ',' then consToken (some .comma) (lexLine .gap cs)
    else if c = '\'' then lexLine .quoteOpen cs
    else if c = '\"' then lexLine (.text []) cs
    else lexLine (.atom [c]) cs
  | .atom rev, c :: cs =>
    if c = ';' then consToken (atomToken rev.reverse) (some [])
    else if c = ' ' ∨ c = '\t' ∨ c = '\r' then consToken (atomToken rev.reverse) (lexLine .gap cs)
    else if c = ',' then consToken (atomToken rev.reverse) (consToken (some .comma) (lexLine .gap cs))
    else if c = '\'' ∨ c = '\"' then none
    else lexLine (.atom (c :: rev)) cs
  | .quoteOpen, c :: cs => if printableAscii c then lexLine (.quoteChar c) cs else none
  | .quoteChar q, c :: cs => if c = '\'' then consToken (some (.char q)) (lexLine .gap cs) else none
  | .text rev, c :: cs =>
    if c = '\"' then consToken (some (.text rev.reverse)) (lexLine .gap cs) else lexLine (.text (c :: rev)) cs

/-- The value of a byte operand token (R87). -/
def byteOperand : Token → Option Nat
  | .number n => some n
  | .char c => some c.toNat
  | .name _ => none
  | .text _ => none
  | .comma => none

/-- The values of a list of byte operands. -/
def byteOperands : List Token → Option (List Nat)
  | [] => some []
  | t :: ts =>
    match byteOperand t, byteOperands ts with
    | some b, some bs => some (b :: bs)
    | _, _ => none

/-- The line a list of tokens writes, mnemonics in upper case (R87, R88); `none` for an assembly error. -/
def parseTokens : List Token → Option SourceLine
  | [] => some .blank
  | .name m :: ops =>
    if m = ['R', 'E', 'S', 'E', 'T'] then (if ops = [] then some .reset else none)
    else if m = ['F', 'I', 'N', 'A', 'L', 'I', 'Z', 'E'] then (if ops = [] then some .finalize else none)
    else if m = ['A', 'B', 'S', 'O', 'R', 'B'] then
      match byteOperands ops with
      | some [b] => some (.absorb b)
      | _ => none
    else if m = ['.', 'w', 'o', 'r', 'd'] then
      match ops with
      | [.number v] => some (.word v)
      | _ => none
    else if m = ['A', 'B', 'S', 'O', 'R', 'B', 'N'] then (byteOperands ops).map .absorbN
    else if m = ['A', 'B', 'S', 'O', 'R', 'B', 'S'] then
      match ops with
      | [.text cs] => some (.absorbS cs)
      | _ => none
    else if m = ['A', 'B', 'S', 'O', 'R', 'B', 'R'] then
      match ops with
      | [b, .comma, .number k] => (byteOperand b).map (SourceLine.absorbR · k)
      | _ => none
    else if m = ['H', 'A', 'S', 'H'] then (byteOperands ops).map .hash
    else if m = ['H', 'A', 'S', 'H', 'S'] then
      match ops with
      | [.text cs] => some (.hashS cs)
      | _ => none
    else none
  | _ :: _ => none

/-- One line of text (R87). -/
def parseLine (cs : List Char) : Option SourceLine :=
  match lexLine .gap cs with
  | some ts => parseTokens ts
  | none => none

/-- The lines of a text, split at line ends; `rev` is the line being read, its last character first. -/
def splitLines : List Char → List Char → List (List Char)
  | rev, [] => [rev.reverse]
  | rev, c :: cs => if c = '\n' then rev.reverse :: splitLines [] cs else splitLines (c :: rev) cs

/-- Parse every line; one assembly error spoils the program. -/
def parseLines : List (List Char) → Option (List SourceLine)
  | [] => some []
  | l :: ls =>
    match parseLine l, parseLines ls with
    | some x, some xs => some (x :: xs)
    | _, _ => none

/-- The command words of a program text, or `none` for an assembly error (R87, R88). -/
def assemble (text : List Char) : Option (List CmdWord) :=
  match parseLines (splitLines [] text) with
  | some lines => expandProgram lines
  | none => none

end Sys2Proof.Machine
end

