-- ==== Sys2Proof/Machine/CompressFunction.lean ====
section
/-! DEFINITION. `compress : (Word32^8) x (Byte^64) -> Word32^8`, the operation as a function of its two inputs alone
(R135, R137): no register, no scratch. Claims are stated with it; the machine runs `compressRun`. -/

namespace Sys2Proof.Machine

/-- The schedule words `w[0..15+n]`, the newest first, so that `w[i-2]`, `w[i-7]`, `w[i-15]`, `w[i-16]` stand at places
1, 6, 14, 15 (R129, R130). -/
def scheduleNewestFirst (block : Block) : Nat → List Word
  | 0 => ((List.finRange 16).map (bufLoadWord block)).reverse
  | n + 1 =>
    let ws := scheduleNewestFirst block n
    scheduleSum (ws.getD 15 0) (ws.getD 6 0) (ws.getD 14 0) (ws.getD 1 0) :: ws

/-- The schedule `w[0..63]` of a block in index order. -/
@[irreducible] def schedule (block : Block) : List Word := (scheduleNewestFirst block 48).reverse

/-- The eight working variables (R131). -/
structure Working where
  a : Word
  b : Word
  c : Word
  d : Word
  e : Word
  f : Word
  g : Word
  h : Word
  deriving DecidableEq, Repr

/-- The working variables before round 0 (R131). -/
def workingOf (hash : HashWords) : Working :=
  ⟨hash[0], hash[1], hash[2], hash[3], hash[4], hash[5], hash[6], hash[7]⟩

/-- One round with constant `k` and schedule word `w` (R132, R133). -/
def roundOf (v : Working) (k w : Word) : Working :=
  let t1 := roundT1 v.e v.f v.g v.h k w
  let t2 := roundT2 v.a v.b v.c
  ⟨add32 t1 t2, v.a, v.b, v.c, add32 v.d t1, v.e, v.f, v.g⟩

/-- The 64 rounds over the pairs (K[t], w[t]), `t` increasing (R133). -/
def roundsOf (v : Working) (kws : List (Word × Word)) : Working := kws.foldl (fun v kw => roundOf v kw.1 kw.2) v

/-- The feed-forward (R134). -/
def accumulate (hash : HashWords) (v : Working) : HashWords :=
  #v[add32 hash[0] v.a, add32 hash[1] v.b, add32 hash[2] v.c, add32 hash[3] v.d,
     add32 hash[4] v.e, add32 hash[5] v.f, add32 hash[6] v.g, add32 hash[7] v.h]

/-- The compression function of R135. -/
@[irreducible] def compress (hash : HashWords) (block : Block) : HashWords :=
  accumulate hash (roundsOf (workingOf hash) (kTable.zip (schedule block)))

end Sys2Proof.Machine
end

