-- ==== Sys2Proof/Machine/Message.lean ====
section
/-! DEFINITION. The digest of a message as the spec states it without a machine: the padded message, its blocks, the fold
of the compression function, the serialisation (R2, R11, R26, R167, R168). Claims compare the machine with it. -/

namespace Sys2Proof.Machine

/-- The number of zero bytes of the padding of an `len`-byte message: the least `z` that makes `len + 1 + z + 8` a
multiple of 64 (R167). -/
def paddingZeros (len : Nat) : Nat := (119 - len % 64) % 64

/-- The length field, `(8 * len) mod 2^64` in 8 big-endian bytes (R165, R166). -/
def lengthField (len : Nat) : List Byte := (List.range 8).map (lengthByte (BitVec.ofNat 64 (8 * len)))

/-- The padded message (R167): the message, `0x80`, the zero bytes, the length field. -/
def paddedMessage (m : List Byte) : List Byte :=
  m ++ [0x80#8] ++ List.replicate (paddingZeros m.length) 0x00#8 ++ lengthField m.length

/-- Block number `q` of a byte sequence, bytes `64q .. 64q + 63` (R52). -/
@[irreducible] def blockAt (bytes : List Byte) (q : Nat) : Block := Vector.ofFn fun k => bytes.getD (64 * q + k.val) 0x00#8

/-- The whole 64-byte blocks of a byte sequence, in order (R26, R105). -/
def wholeBlocks (bytes : List Byte) : List Block := (List.range (bytes.length / 64)).map (blockAt bytes)

/-- The hash words after folding blocks into `IV`, in order (R26). -/
def foldBlocks (blocks : List Block) : HashWords := blocks.foldl compress iv

/-- The digest of a message: the engine's contract (R2, R167, R168). -/
def messageDigest (m : List Byte) : Digest := serialize (foldBlocks (wholeBlocks (paddedMessage m)))

end Sys2Proof.Machine
end

