-- ==== Sys2Proof/Machine/Flags.lean ====
section
/-! DEFINITION. The outputs the host can read between commands, functions of the state without side effect (R29, R56):
the codes of `phase` and `fault`, `digest_valid`, the digest output and its hexadecimal form, and the observation of a
run (R242). There are no arithmetic flags (R29). -/

namespace Sys2Proof.Machine

/-- The value of the `phase` register, 1 bit (R27). -/
def Phase.code : Phase → BitVec 1
  | .absorbing => 0#1
  | .finalized => 1#1

/-- The 2-bit code of a fault cause (R28, R200). -/
def FaultCause.code : FaultCause → BitVec 2
  | .illegalCommand => 1#2
  | .invalidState => 2#2

/-- The value of the `fault` register, 2 bits (R28). -/
def faultCode : Option FaultCause → BitVec 2
  | none => 0#2
  | some c => c.code

/-- `rsp_kind`, 2 bits (R90). -/
def Response.kind : Response → BitVec 2
  | .ok => 0#2
  | .digest _ => 1#2
  | .fault _ => 2#2

/-- `digest_valid = (phase = FINALIZED) and (fault = NONE)` (R29). -/
def State.digestValid (s : State) : Bool := decide (s.phase = .finalized ∧ s.fault = none)

/-- The digest output: the serialised hash words while `digest_valid = 1` (R180), unspecified otherwise: a free value (R181,
log entry 8). -/
def State.digestOutput (s : State) : Digest :=
  if s.digestValid then serialize s.hash else Vector.ofFn (Config.invalidDigestByte s.draws s.toEngine)

/-- The output `digest_hex = toHex(digest)`, with the same validity (R184). -/
def State.digestHex (s : State) : Vector Byte 64 := toHex s.digestOutput

/-- What the host observes after a response (R242): nothing else is observable (R29). -/
structure Observation where
  response : Option Response
  phase : BitVec 1
  fault : BitVec 2
  digestValid : Bool
  /-- The digest output, read only while it is valid. -/
  digest : Option Digest
  deriving DecidableEq, Repr

/-- The observation of a state (R29, R242). -/
def State.observe (s : State) : Observation where
  response := s.response
  phase := s.phase.code
  fault := faultCode s.fault
  digestValid := s.digestValid
  digest := if s.digestValid then some s.digestOutput else none

end Sys2Proof.Machine
end

