-- ==== Sys2Proof/Machine/Run.lean ====
section
/-! DEFINITION. Runs: several steps of the machine, and what the host observes of them (R242). -/

namespace Sys2Proof.Machine

/-- `k` steps of the machine behind the host's interface, on its states by name. -/
def runSteps (k : Nat) (s : State) : Host.Outcome State Fault Refusal := Host.Core.run Sys2Proof.core k s

/-- The observation of a run of `k` steps: the response and the outputs after each (R242). -/
def observations : Nat → State → List Observation
  | 0, _ => []
  | k + 1, s =>
    match step s with
    | .next t => t.observe :: observations k t
    | .fault _ => []
    | .refused _ => []

end Sys2Proof.Machine
end

