-- ==== Sys2Proof/Safety.lean ====
section
/-! DEFINITION. What claims are stated in: the invariants of R26 and their consequences, the state of a message in
progress (R26 I4), equality up to what no rule reads (R31, R32, R36), the controller's decisions (R193), and a safe run (R242). -/

namespace Sys2Proof.Machine

/-- The invariants between commands. (I2) `bits` is a multiple of 512; the round index is legal (R20); a recorded
INVALID_STATE was raised in phase FINALIZED (R202, R205); the response port agrees with the registers (R90, R180, R206).
(I1) and (I3) hold by the types. -/
structure State.Inv (s : State) : Prop where
  bits_whole_blocks : s.bits.toNat % 512 = 0
  round_index_legal : s.scratch.t.toNat ≤ 64
  invalid_state_finalized : s.fault = some .invalidState → s.phase = .finalized
  fault_response : ∀ c, s.response = some (.fault c) → s.fault = some c
  ok_response : s.response = some .ok → s.phase = .absorbing ∧ s.fault = none
  digest_response : ∀ d, s.response = some (.digest d) → s.digestValid = true ∧ s.digestOutput = d

/-- The engine is absorbing and holds exactly the message `m` (R26 I4). -/
structure State.Holds (m : List Byte) (s : State) : Prop where
  absorbing : s.phase = .absorbing
  no_fault : s.fault = none
  fill_tail : s.fill.toNat = m.length % 64
  bits_blocks : s.bits = BitVec.ofNat 64 (512 * (m.length / 64))
  buf_tail : ∀ k (h : k < 64), k < m.length % 64 → s.buf[k] = m.getD (64 * (m.length / 64) + k) 0x00#8
  hash_blocks : s.hash = foldBlocks (wholeBlocks m)

/-- Two states differ at most in what no rule reads: scratch (R31), stale buffer bytes (R32), what FINALIZE leaves
unspecified (R36), and the model's own draw counter. -/
structure State.SameReadable (s t : State) : Prop where
  hash : s.hash = t.hash
  phase : s.phase = t.phase
  fault : s.fault = t.fault
  response : s.response = t.response
  host : s.host = t.host
  fill : s.phase = .absorbing → s.fill = t.fill
  bits : s.phase = .absorbing → s.bits = t.bits
  buf : s.phase = .absorbing → ∀ k (h : k < 64), k < s.fill.toNat → s.buf[k] = t.buf[k]

/-- Two commands of one kind, the operand of ABSORB left open (R193). -/
def sameKind : Instr → Instr → Bool
  | .reset, .reset => true
  | .absorb _, .absorb _ => true
  | .finalize, .finalize => true
  | .reset, .absorb _ => false
  | .reset, .finalize => false
  | .absorb _, .reset => false
  | .absorb _, .finalize => false
  | .finalize, .reset => false
  | .finalize, .absorb _ => false

/-- Where one byte of a compressed block comes from. -/
inductive ByteSource where
  /-- The byte the buffer holds at that position. -/
  | held
  /-- The operand of ABSORB (R100). -/
  | operand
  /-- The padding byte `0x80` (R162). -/
  | padStart
  /-- A zero byte of the padding (R163, R164). -/
  | zero
  /-- Byte `j` of the length field (R166). -/
  | length (j : Nat)
  deriving DecidableEq, Repr

/-- What the last padded block holds where the tail and the padding byte do not reach: zeros up to index 56, then the
length field (R163, R164, R166). -/
def lengthOrZero (k : Fin 64) : ByteSource := if k.val < 56 then .zero else .length (k.val - 56)

/-- The sources of a padded block that starts with the tail of `fill` held bytes and the padding byte; `rest` says what
follows them (R161 to R164). -/
def tailThen (fill : BitVec 6) (rest : Fin 64 → ByteSource) (k : Fin 64) : ByteSource :=
  if k.val < fill.toNat then .held else if k.val = fill.toNat then .padStart else rest k

/-- Every decision of the controller about compressions (R193): the blocks a command compresses, and where each of their
bytes comes from, out of the kind of the command, `fault`, `phase` and the cursor alone. -/
def compressionPlan : Instr → Option FaultCause → Phase → BitVec 6 → List (Fin 64 → ByteSource)
  | .reset, _, _, _ => []
  | .absorb _, none, .absorbing, fill => if fill = 63#6 then [fun k => if k.val = 63 then .operand else .held] else []
  | .finalize, none, .absorbing, fill =>
    if fill.toNat < 56 then [tailThen fill lengthOrZero] else [tailThen fill fun _ => .zero, lengthOrZero]
  | .absorb _, none, .finalized, _ => []
  | .finalize, none, .finalized, _ => []
  | .absorb _, some _, _, _ => []
  | .finalize, some _, _, _ => []

/-- The operand byte of a command; RESET and FINALIZE have none, and no plan of theirs asks for it. -/
def operandByte : Instr → Byte
  | .reset => 0x00#8
  | .absorb b => b
  | .finalize => 0x00#8

/-- The byte a source gives at position `k`, for a command `i` on a state `s`. -/
def sourceByte (i : Instr) (s : State) (k : Fin 64) : ByteSource → Byte
  | .held => s.buf[k]
  | .operand => operandByte i
  | .padStart => 0x80#8
  | .zero => 0x00#8
  | .length j => lengthByte (totalBits s.bits s.fill) j

/-- The hash words after compressing the planned blocks, in order, with the data of `i` and `s`. -/
def runPlan (plan : List (Fin 64 → ByteSource)) (i : Instr) (s : State) : HashWords :=
  plan.foldl (fun hash sources => compress hash (blockOf fun k => sourceByte i s k (sources k))) s.hash

/-- The legal life of the engine from a phase on, `( RESET ABSORB* FINALIZE? )*` (R192): ABSORB and FINALIZE only while
absorbing, RESET always. -/
def inLifecycle : Phase → List Instr → Bool
  | _, [] => true
  | _, .reset :: more => inLifecycle .absorbing more
  | .absorbing, .absorb _ :: more => inLifecycle .absorbing more
  | .absorbing, .finalize :: more => inLifecycle .finalized more
  | .finalized, .absorb _ :: _ => false
  | .finalized, .finalize :: _ => false

/-- A state in which a run has not gone wrong (R242). -/
def State.safe (s : State) : Bool := decide (s.fault = none)

end Sys2Proof.Machine
end

