-- ==== Sys2Proof/Certificates/Slice0/Obligations.lean ====
section
/-! DEFINITION. The statements for the provers. Each docstring names the rule of the spec it formalises. A statement
about a state whose buffer tail, scratch registers or leftovers are unspecified holds for every value of them. -/

open Sys2Proof Sys2Proof.Machine

/-! ## Encoding -/

/-- R83, R84: a word decodes to a command exactly when it is that command's word. Every term of `Instr` is well formed,
so this is both directions of "decode and encode agree", for every operand. -/
def Obligations.DecodeIffEncode : Prop :=
  ∀ (w : CmdWord) (i : Instr), decode w = .command i ↔ w = encode i

/-- R84: the decoder as the rule writes it, with `op = cmd[9:8]` and `data = cmd[7:0]` as numbers; it reads no state. -/
def Obligations.DecodeFollowsFieldTests : Prop :=
  ∀ w : CmdWord,
    (w.toNat / 256 = 0 ∧ w.toNat % 256 = 0 → decode w = .command .reset) ∧
    (w.toNat / 256 = 1 → decode w = .command (.absorb (BitVec.ofNat 8 (w.toNat % 256)))) ∧
    (w.toNat / 256 = 2 ∧ w.toNat % 256 = 0 → decode w = .command .finalize) ∧
    (w.toNat / 256 = 0 ∧ w.toNat % 256 ≠ 0 → ∃ why, decode w = .illegal why) ∧
    (w.toNat / 256 = 2 ∧ w.toNat % 256 ≠ 0 → ∃ why, decode w = .illegal why) ∧
    (w.toNat / 256 = 3 → ∃ why, decode w = .illegal why)

/-- R83: the opcode table's match and mask columns select the command. -/
def Obligations.MaskAndMatchSelectCommand : Prop :=
  ∀ w : CmdWord,
    (w &&& 0x3FF#10 = 0x000#10 ↔ decode w = .command .reset) ∧
    (w &&& 0x300#10 = 0x100#10 ↔ ∃ b, decode w = .command (.absorb b)) ∧
    (w &&& 0x3FF#10 = 0x200#10 ↔ decode w = .command .finalize)

/-- R83: the rule's worked encodings, and R85's near miss of RESET, as words written out bit by bit. -/
def Obligations.WorkedEncodingsDecode : Prop :=
  decode 0b0000000000#10 = .command .reset ∧
  decode 0b0101100001#10 = .command (.absorb 0x61#8) ∧
  decode 0b0100000000#10 = .command (.absorb 0x00#8) ∧
  decode 0b0111111111#10 = .command (.absorb 0xFF#8) ∧
  decode 0b1000000000#10 = .command .finalize ∧
  decode 0b0000000001#10 = .illegal .resetOperand ∧
  decode 0b1000000001#10 = .illegal .finalizeOperand ∧
  decode 0b1100000000#10 = .illegal .unassignedOp

/-! ## One step -/

/-- R207, R30: when the word presented next decodes to a command, the step is that command's execution on the state with
the word taken. The draw counter is the model's own (log entry 5). -/
def Obligations.StepRunsDecodedCommand : Prop :=
  ∀ (s : State) (w : CmdWord) (rest : List HostEvent) (i : Instr),
    s.host = .command w :: rest → decode w = .command i →
      step s = exec i { s with host := rest, draws := s.draws + 1 }

/-- R207: the complete command step. For every state and every presented word, the order of the checks and the branch
taken. The state `s1` that the branches start from also has the draw counter advanced, which no rule says: it is the
model's own field and choice (log entry 5). -/
def Obligations.StepFollowsCheckOrder : Prop :=
  ∀ (s : State) (w : CmdWord) (rest : List HostEvent), s.host = .command w :: rest →
    ∀ s1 : State, s1 = { s with host := rest, draws := s.draws + 1 } →
      (decode w = .command .reset → step s = exec .reset s1) ∧
      (∀ c, decode w ≠ .command .reset → s.fault = some c →
        step s = .next { s1 with response := some (.fault c) }) ∧
      (∀ why, s.fault = none → decode w = .illegal why →
        step s = .next { s1 with fault := some .illegalCommand, response := some (.fault .illegalCommand) }) ∧
      (∀ i, s.fault = none → s.phase = .finalized → decode w = .command i → i ≠ .reset →
        step s = .next { s1 with fault := some .invalidState, response := some (.fault .invalidState) }) ∧
      (∀ b, s.fault = none → s.phase = .absorbing → decode w = .command (.absorb b) →
        step s = .next (s1.absorbByte b)) ∧
      (s.fault = none → s.phase = .absorbing → decode w = .command .finalize →
        step s = .next s1.finalizeMessage)

/-- R10, R207: the step is total; no state and no event stops the machine. -/
def Obligations.StepIsTotal : Prop := ∀ s : State, ∃ t : State, step s = .next t

/-- R90, R206: every command word produces exactly one response; which kind it is, and the code of a FAULT is the value
of `fault` after the step. -/
def Obligations.EveryWordIsAnswered : Prop :=
  ∀ (s : State) (w : CmdWord) (rest : List HostEvent), s.host = .command w :: rest →
    ∃ (t : State) (r : Response), step s = .next t ∧ t.response = some r ∧
      (r = .ok ↔ decode w = .command .reset ∨
        (s.fault = none ∧ s.phase = .absorbing ∧ ∃ b, decode w = .command (.absorb b))) ∧
      ((∃ d, r = .digest d) ↔ s.fault = none ∧ s.phase = .absorbing ∧ decode w = .command .finalize) ∧
      (∀ c, r = .fault c → t.fault = some c)

/-- R213: with nothing presented the engine is idle and holds all its state. That the response port empties is the
model's choice (log entry 2). -/
def Obligations.IdleHoldsState : Prop :=
  ∀ s : State, s.host = [] → step s = .next { s with response := none }

/-- R34, R230: the hardware reset, at a command boundary or while a command is in progress, gives the reset state and no
response; the buffer and the scratch registers are left unspecified. That the interrupted word is consumed with it is
the model's form (log entry 7). -/
def Obligations.HardwareResetGivesResetState : Prop :=
  ∀ (s : State) (interrupted : Option CmdWord) (rest : List HostEvent),
    s.host = .hardwareReset interrupted :: rest →
      ∃ t : State, step s = .next t ∧ t.hash = iv ∧ t.fill = 0#6 ∧ t.bits = 0#64 ∧ t.phase = .absorbing ∧
        t.fault = none ∧ t.response = none ∧ t.digestValid = false ∧ t.host = rest

/-! ## RESET -/

/-- R190: RESET in every state, as the whole next state: the five registers written, the buffer and the scratch
registers not written, response OK; `digest_valid` becomes 0. -/
def Obligations.ResetLoadsInitialState : Prop :=
  ∀ s : State, ∃ t : State, exec .reset s = .next t ∧
    t = { s with hash := iv, fill := 0#6, bits := 0#64, phase := .absorbing, fault := none, response := some .ok } ∧
    t.digestValid = false

/-- R34: the values the spec gives for reset; it gives none for the buffer and the scratch registers. -/
def Obligations.ResetStateValues : Prop :=
  State.reset.hash = iv ∧ State.reset.fill = 0#6 ∧ State.reset.bits = 0#64 ∧ State.reset.phase = .absorbing ∧
  State.reset.fault = none ∧ State.reset.digestValid = false ∧
  iv.toList = [0x6a09e667#32, 0xbb67ae85#32, 0x3c6ef372#32, 0xa54ff53a#32,
    0x510e527f#32, 0x9b05688c#32, 0x1f83d9ab#32, 0x5be0cd19#32]

/-- R191, R209: after a RESET nothing a later command reads depends on what came before it. -/
def Obligations.ResetForgetsThePast : Prop :=
  ∀ s t : State, s.host = t.host →
    ∃ s' t' : State, exec .reset s = .next s' ∧ exec .reset t = .next t' ∧ s'.SameReadable t'

/-! ## ABSORB -/

/-- R100, R59: ABSORB of a byte that does not complete a block, as the whole next state. -/
def Obligations.AbsorbStoresByteAtCursor : Prop :=
  ∀ (s : State) (b : Byte), s.fault = none → s.phase = .absorbing → s.fill ≠ 63#6 →
    exec (.absorb b) s = .next { s with
      buf := s.buf.set s.fill.toNat b s.fill.isLt, fill := s.fill + 1#6, response := some .ok }

/-- R100, R103, R25: the completing step: the byte is stored at index 63, the whole buffer is compressed into `H`,
`fill` becomes 0 and `bits` grows by 512 modulo 2^64. The scratch registers are left unspecified (R31). The draw counter is the model's own (log entry 5). -/
def Obligations.AbsorbCompletesBlock : Prop :=
  ∀ (s : State) (b : Byte), s.fault = none → s.phase = .absorbing → s.fill = 63#6 →
    ∃ t : State, exec (.absorb b) s = .next t ∧
      t.buf = s.buf.set 63 b ∧ t.hash = compress s.hash (s.buf.set 63 b) ∧ t.fill = 0#6 ∧
      t.bits.toNat = (s.bits.toNat + 512) % 2 ^ 64 ∧ t.phase = .absorbing ∧ t.fault = none ∧
      t.response = some .ok ∧ t.host = s.host ∧ t.draws = s.draws

/-- R35, R100, R204: what ABSORB leaves unchanged, in every state. It stores at index `fill` only; a byte that completes
no block changes neither `H` nor `bits` nor the scratch registers; refused, it changes no register but `fault`. The draw
counter is the model's own (log entry 5). -/
def Obligations.AbsorbFrame : Prop :=
  ∀ (s t : State) (b : Byte), exec (.absorb b) s = .next t →
    t.phase = s.phase ∧ t.host = s.host ∧ t.draws = s.draws ∧
    (∀ k (h : k < 64), k ≠ s.fill.toNat → t.buf[k] = s.buf[k]) ∧
    (s.fill ≠ 63#6 → t.hash = s.hash ∧ t.bits = s.bits ∧ t.scratch = s.scratch) ∧
    (s.phase = .absorbing → t.fault = s.fault) ∧
    (s.fault ≠ none ∨ s.phase = .finalized →
      t.hash = s.hash ∧ t.buf = s.buf ∧ t.fill = s.fill ∧ t.bits = s.bits ∧ t.scratch = s.scratch) ∧
    (s.fault ≠ none → t.fault = s.fault)

/-- R101: a sequence of ABSORB words from any absorbing state: the cursor and the bit counter afterwards. -/
def Obligations.AbsorbSequenceCounts : Prop :=
  ∀ (bs : List Byte) (s : State) (rest : List HostEvent), s.fault = none → s.phase = .absorbing →
    s.host = bs.map (fun b => HostEvent.command (encode (.absorb b))) ++ rest →
      ∃ t : State, runSteps bs.length s = .next t ∧
        t.fill.toNat = (s.fill.toNat + bs.length) % 64 ∧
        t.bits.toNat = (s.bits.toNat + 512 * ((s.fill.toNat + bs.length) / 64)) % 2 ^ 64 ∧
        t.phase = .absorbing ∧ t.fault = none ∧ t.host = rest

/-! ## FINALIZE -/

/-- R160 to R163, R165 to R169: FINALIZE of a tail of fewer than 56 bytes. The one block compressed is the `n` buffered
bytes, `0x80`, zeros up to index 56, the 64-bit big-endian length; the response is the serialised hash, which stays on
the digest output. -/
def Obligations.FinalizeOneBlock : Prop :=
  ∀ (s : State) (blk : Block), s.fault = none → s.phase = .absorbing → s.fill.toNat < 56 →
    (∀ k (h : k < 64), blk[k] =
      if k < s.fill.toNat then s.buf[k]
      else if k = s.fill.toNat then 0x80#8
      else if k < 56 then 0x00#8
      else (BitVec.ofNat 64 (s.bits.toNat + 8 * s.fill.toNat)).extractLsb' (56 - 8 * (k - 56)) 8) →
    ∃ t : State, exec .finalize s = .next t ∧ t.hash = compress s.hash blk ∧
      t.response = some (.digest (serialize t.hash)) ∧ t.phase = .finalized ∧ t.fault = none ∧
      t.digestValid = true ∧ t.digestOutput = serialize t.hash

/-- R160, R164 to R169: FINALIZE of a tail of 56 bytes or more. The first block is the buffered bytes, `0x80`, zeros to
the end; the second is 56 zero bytes and the length. -/
def Obligations.FinalizeTwoBlocks : Prop :=
  ∀ (s : State) (first second : Block), s.fault = none → s.phase = .absorbing → 56 ≤ s.fill.toNat →
    (∀ k (h : k < 64), first[k] =
      if k < s.fill.toNat then s.buf[k] else if k = s.fill.toNat then 0x80#8 else 0x00#8) →
    (∀ k (h : k < 64), second[k] =
      if k < 56 then 0x00#8
      else (BitVec.ofNat 64 (s.bits.toNat + 8 * s.fill.toNat)).extractLsb' (56 - 8 * (k - 56)) 8) →
    ∃ t : State, exec .finalize s = .next t ∧ t.hash = compress (compress s.hash first) second ∧
      t.response = some (.digest (serialize t.hash)) ∧ t.phase = .finalized ∧ t.fault = none ∧
      t.digestValid = true ∧ t.digestOutput = serialize t.hash

/-- R35, R36, R204: what FINALIZE leaves unchanged, in every state: nothing but `fault` when refused; accepted, `fault`,
and the invariant of `bits` (its value, `fill`, `buf` and the scratch registers are unspecified). The draw counter is the
model's own (log entry 5). -/
def Obligations.FinalizeFrame : Prop :=
  ∀ s t : State, exec .finalize s = .next t →
    t.host = s.host ∧ t.draws = s.draws ∧
    (s.phase = .absorbing → t.fault = s.fault) ∧
    (s.fault = none ∧ s.phase = .absorbing → t.bits.toNat % 512 = 0) ∧
    (s.fault ≠ none ∨ s.phase = .finalized →
      t.hash = s.hash ∧ t.buf = s.buf ∧ t.fill = s.fill ∧ t.bits = s.bits ∧ t.scratch = s.scratch ∧
      t.phase = s.phase) ∧
    (s.fault ≠ none → t.fault = s.fault)

/-- R165: `totalBits` never carries between its two parts, and does not wrap, because `bits` is a multiple of 512. -/
def Obligations.TotalBitsDoNotCarry : Prop :=
  ∀ (bits : BitVec 64) (n : BitVec 6), bits.toNat % 512 = 0 →
    (totalBits bits n).toNat = bits.toNat + 8 * n.toNat ∧
    (totalBits bits n).toNat / 512 = bits.toNat / 512 ∧ (totalBits bits n).toNat % 512 = 8 * n.toNat

/-! ## Faults -/

/-- R205: while a fault is recorded every word but a well-formed RESET is refused, illegal words included: no register
changes, the response repeats the recorded code, and `digest_valid` is 0. That the draw counter advances no rule says: it
is the model's own field and choice (log entry 5). -/
def Obligations.FaultStopRefusesAllButReset : Prop :=
  ∀ (s : State) (c : FaultCause) (w : CmdWord) (rest : List HostEvent),
    s.fault = some c → s.host = .command w :: rest → decode w ≠ .command .reset →
      ∃ t : State, step s = .next t ∧
        t = { s with host := rest, draws := s.draws + 1, response := some (.fault c) } ∧
        t.digestValid = false

/-- R202, R203: ABSORB and FINALIZE in phase FINALIZED raise INVALID_STATE: `fault` and the response are written, and
nothing else. -/
def Obligations.InvalidStateAfterFinalize : Prop :=
  ∀ (s : State) (i : Instr), s.fault = none → s.phase = .finalized → i ≠ .reset →
    exec i s = .next { s with fault := some .invalidState, response := some (.fault .invalidState) }

/-- R204: a command that is answered with a fault has changed no register but `fault`, whichever word it was. -/
def Obligations.FaultsArePrecise : Prop :=
  ∀ (s t : State) (w : CmdWord) (rest : List HostEvent) (c : FaultCause),
    s.host = .command w :: rest → step s = .next t → t.response = some (.fault c) →
      t.hash = s.hash ∧ t.buf = s.buf ∧ t.fill = s.fill ∧ t.bits = s.bits ∧ t.phase = s.phase ∧
      t.scratch = s.scratch

/-- R28, R205, R209: a recorded fault leaves only by a RESET word or a hardware reset; until then no register of the
engine changes in any step. -/
def Obligations.FaultedEngineIsQuiescent : Prop :=
  ∀ (s t : State) (c : FaultCause), s.fault = some c → step s = .next t →
    (∀ rest, s.host ≠ .command (encode .reset) :: rest) →
    (∀ interrupted rest, s.host ≠ .hardwareReset interrupted :: rest) →
      t.toEngine = s.toEngine

/-! ## Whole-machine rules -/

/-- R27: `phase` becomes FINALIZED by a FINALIZE that completes and ABSORBING by RESET or the hardware reset; nothing
else changes it. -/
def Obligations.PhaseChangesOnlyBy : Prop :=
  ∀ s t : State, step s = .next t → t.phase ≠ s.phase →
    (t.phase = .finalized ∧ s.fault = none ∧ ∃ rest, s.host = .command (encode .finalize) :: rest) ∨
    (t.phase = .absorbing ∧ ((∃ rest, s.host = .command (encode .reset) :: rest) ∨
      ∃ interrupted rest, s.host = .hardwareReset interrupted :: rest))

/-- R21, R35: `H` is written by a reset, by an accepted ABSORB that completes a block, and by an accepted FINALIZE, and
by nothing else. -/
def Obligations.HashWrittenOnlyBy : Prop :=
  ∀ s t : State, step s = .next t → t.hash ≠ s.hash →
    (∃ rest, s.host = .command (encode .reset) :: rest) ∨
    (∃ interrupted rest, s.host = .hardwareReset interrupted :: rest) ∨
    (s.fault = none ∧ s.phase = .absorbing ∧
      ((s.fill = 63#6 ∧ ∃ b rest, s.host = .command (encode (.absorb b)) :: rest) ∨
       ∃ rest, s.host = .command (encode .finalize) :: rest))

/-- R180: the digest output keeps its value for as long as `digest_valid` stays 1. -/
def Obligations.DigestOutputIsHeld : Prop :=
  ∀ s t : State, step s = .next t → s.digestValid = true → t.digestValid = true →
    t.digestOutput = s.digestOutput

/-- R26, R20, R90, R180: the invariants hold right after reset. -/
def Obligations.ResetMeetsInvariants : Prop := State.reset.Inv

/-- R26, R20, R90, R180, R206: every step from any state that meets the invariants gives a state that meets them. -/
def Obligations.StepKeepsInvariants : Prop :=
  ∀ s t : State, s.Inv → step s = .next t → t.Inv

/-- R32, R31, R36, R191: no step reads what the spec leaves unspecified. Two states that differ only in stale buffer
bytes, scratch registers, FINALIZE's leftovers and the draw counter answer alike and stay so. -/
def Obligations.UnspecifiedStateIsNeverRead : Prop :=
  ∀ s t s' : State, s.SameReadable t → step s = .next s' →
    ∃ t' : State, step t = .next t' ∧ s'.SameReadable t' ∧ s'.observe = t'.observe

/-- R193: the engine's control depends on the command sequence and the cursor alone. Two engines with equal `phase`,
`fault` and cursor, given commands of one kind with any bytes, end in equal phase, fault and response kind, and in equal
cursors while absorbing. The blocks they compress follow ONE plan, which is computed from the kind of command, `fault`,
`phase` and the cursor alone: whether ABSORB compresses, one padding block or two, and which bytes of each block are
held, zero, `0x80` or of the length field. A RESET compresses nothing and leaves equal hash words. Every compression runs
all its 64 rounds: the round index ends at 64 (when it is written is the model's reading, log entry 14). -/
def Obligations.ControlIgnoresData : Prop :=
  (∀ (s t s' t' : State) (i j : Instr), sameKind i j = true →
    s.phase = t.phase → s.fault = t.fault → s.fill = t.fill →
    exec i s = .next s' → exec j t = .next t' →
      s'.phase = t'.phase ∧ s'.fault = t'.fault ∧ s'.response.map Response.kind = t'.response.map Response.kind ∧
      (s'.phase = .absorbing → s'.fill = t'.fill) ∧
      (i = .reset → s'.hash = iv ∧ t'.hash = iv) ∧
      (i ≠ .reset →
        s'.hash = runPlan (compressionPlan i s.fault s.phase s.fill) i s ∧
        t'.hash = runPlan (compressionPlan i s.fault s.phase s.fill) j t)) ∧
  (∀ (sc : Scratch) (hash : HashWords) (buf : Block), (compressRun sc hash buf).1.t = 64#7)

/-! ## Compression -/

/-- R120: addition modulo 2^32, the carry discarded. -/
def Obligations.AddModulo32 : Prop := ∀ x y : Word, (add32 x y).toNat = (x.toNat + y.toNat) % 2 ^ 32

/-- R121: bit `k` of a rotation by `n` in 1..31 is bit `(k + n) mod 32` of the word. -/
def Obligations.RotationMovesBits : Prop :=
  ∀ (x : Word) (n k : Nat), 1 ≤ n → n ≤ 31 → k < 32 → (rotr x n).getLsbD k = x.getLsbD ((k + n) % 32)

/-- R123, R124: `Ch` selects, `Maj` votes, bit by bit. -/
def Obligations.ChooseAndMajorityPerBit : Prop :=
  ∀ (x y z : Word) (k : Nat), k < 32 →
    (ch x y z).getLsbD k = (if x.getLsbD k then y.getLsbD k else z.getLsbD k) ∧
    (maj x y z).getLsbD k = decide (2 ≤ (x.getLsbD k).toNat + (y.getLsbD k).toNat + (z.getLsbD k).toNat)

/-- R125 to R128: bit `k` of the four sigma functions; the third term of the lower-case ones is a shift, whose high bits
are zero. -/
def Obligations.SigmaBits : Prop :=
  ∀ (x : Word) (k : Nat), k < 32 →
    (bigSigma0 x).getLsbD k =
      (x.getLsbD ((k + 2) % 32) ^^ x.getLsbD ((k + 13) % 32) ^^ x.getLsbD ((k + 22) % 32)) ∧
    (bigSigma1 x).getLsbD k =
      (x.getLsbD ((k + 6) % 32) ^^ x.getLsbD ((k + 11) % 32) ^^ x.getLsbD ((k + 25) % 32)) ∧
    (smallSigma0 x).getLsbD k =
      (x.getLsbD ((k + 7) % 32) ^^ x.getLsbD ((k + 18) % 32) ^^ (decide (k + 3 < 32) && x.getLsbD (k + 3))) ∧
    (smallSigma1 x).getLsbD k =
      (x.getLsbD ((k + 17) % 32) ^^ x.getLsbD ((k + 19) % 32) ^^ (decide (k + 10 < 32) && x.getLsbD (k + 10)))

/-- R57: the word load, big-endian, into `w[i]`. -/
def Obligations.WordLoadIsBigEndian : Prop :=
  ∀ (buf : Block) (sc : Scratch) (i : Fin 16),
    (loadScheduleWord buf i sc).w[i.val].toNat =
      buf[4 * i.val].toNat * 2 ^ 24 + buf[4 * i.val + 1].toNat * 2 ^ 16 +
        buf[4 * i.val + 2].toNat * 2 ^ 8 + buf[4 * i.val + 3].toNat

/-- R58: the length store: `buf[56 + j] <- totalBits[63 - 8j : 56 - 8j]`, every other byte as before. -/
def Obligations.LengthStoreIsBigEndian : Prop :=
  ∀ (s : State) (v : BitVec 64),
    (∀ j (h : j < 8), ((s.storeLength v).buf[56 + j]).toNat = v.toNat / 2 ^ (56 - 8 * j) % 256) ∧
    (∀ k (h : k < 56), (s.storeLength v).buf[k] = s.buf[k])

/-- R53: the length field seen as schedule words: `w[14]` is its high half and `w[15]` its low half. -/
def Obligations.LengthFieldIsLastTwoWords : Prop :=
  ∀ (buf : Block) (v : BitVec 64),
    (bufLoadWord (bufStoreLength buf v) 14).toNat = v.toNat / 2 ^ 32 ∧
    (bufLoadWord (bufStoreLength buf v) 15).toNat = v.toNat % 2 ^ 32

/-- R129, R130: the message schedule in the registers, from any scratch contents: the first sixteen words are the
block's, the others obey the recurrence. -/
def Obligations.ScheduleRecurrence : Prop :=
  ∀ (buf : Block) (sc : Scratch),
    (∀ i : Fin 16, (loadSchedule buf sc).w[i.val] = bufLoadWord buf i) ∧
    (∀ j (h : j < 48), (loadSchedule buf sc).w[j + 16] =
      (loadSchedule buf sc).w[j] + (loadSchedule buf sc).w[j + 9] +
        smallSigma0 (loadSchedule buf sc).w[j + 1] + smallSigma1 (loadSchedule buf sc).w[j + 14])

/-- R132, R133: one round, from any register contents: the sums of seven and of six terms modulo 2^32 that `a` and `e`
take, the moves of the other six working registers, and the schedule left alone. -/
def Obligations.RoundUpdatesWorkingRegisters : Prop :=
  ∀ (t : Fin 64) (sc : Scratch),
    (compressRound t sc).a.toNat =
      (sc.h.toNat + (bigSigma1 sc.e).toNat + (ch sc.e sc.f sc.g).toNat + (kRom t).toNat + sc.w[t.val].toNat +
        (bigSigma0 sc.a).toNat + (maj sc.a sc.b sc.c).toNat) % 2 ^ 32 ∧
    (compressRound t sc).e.toNat =
      (sc.d.toNat + sc.h.toNat + (bigSigma1 sc.e).toNat + (ch sc.e sc.f sc.g).toNat + (kRom t).toNat +
        sc.w[t.val].toNat) % 2 ^ 32 ∧
    (compressRound t sc).b = sc.a ∧ (compressRound t sc).c = sc.b ∧ (compressRound t sc).d = sc.c ∧
    (compressRound t sc).f = sc.e ∧ (compressRound t sc).g = sc.f ∧ (compressRound t sc).h = sc.g ∧
    (compressRound t sc).w = sc.w

/-- R134: the feed-forward adds the working registers, in order, into the hash words modulo 2^32. -/
def Obligations.FeedForwardAddsModulo32 : Prop :=
  ∀ (hash : HashWords) (sc : Scratch) (i : Nat) (h : i < 8),
    ((feedForward hash sc)[i]).toNat =
      (hash[i].toNat + ([sc.a, sc.b, sc.c, sc.d, sc.e, sc.f, sc.g, sc.h].getD i 0#32).toNat) % 2 ^ 32

/-- R135, R136, R137: `Compress()` on the registers, from any scratch contents, is the compression function of the hash
words and the block alone. -/
def Obligations.CompressIsFunctionOfBlockAndHash : Prop :=
  ∀ (sc : Scratch) (hash : HashWords) (buf : Block), (compressRun sc hash buf).2 = compress hash buf

/-! ## Digest and hexadecimal form -/

/-- R168: `d[4i + j] = H[i][31 - 8j : 24 - 8j]`. -/
def Obligations.DigestIsBigEndian : Prop :=
  ∀ (hash : HashWords) (i j : Nat) (hi : i < 8) (hj : j < 4),
    ((serialize hash)[4 * i + j]).toNat = hash[i].toNat / 2 ^ (24 - 8 * j) % 256

/-- R182, R183: two lowercase ASCII hex digits per byte, the high nibble first. -/
def Obligations.HexRendersNibbles : Prop :=
  ∀ (d : Digest) (k : Nat) (h : k < 32),
    ((toHex d)[2 * k]).toNat = ("0123456789abcdef".toList.getD (d[k].toNat / 16) '?').toNat ∧
    ((toHex d)[2 * k + 1]).toNat = ("0123456789abcdef".toList.getD (d[k].toNat % 16) '?').toNat

/-- R185: `toHex` answers 64 characters of `0-9a-f`, and distinct digests have distinct strings. -/
def Obligations.HexFormAndInjectivity : Prop :=
  (∀ (d : Digest) (p : Nat) (h : p < 64),
    (0x30 ≤ ((toHex d)[p]).toNat ∧ ((toHex d)[p]).toNat ≤ 0x39) ∨
    (0x61 ≤ ((toHex d)[p]).toNat ∧ ((toHex d)[p]).toNat ≤ 0x66)) ∧
  (∀ d e : Digest, toHex d = toHex e → d = e)

/-! ## Messages -/

/-- R26 (I4), R34: right after the hardware reset, and after a RESET in any state, the engine holds the empty message. -/
def Obligations.ResetHoldsEmptyMessage : Prop :=
  State.reset.Holds [] ∧ ∀ s : State, ∃ t : State, exec .reset s = .next t ∧ t.Holds []

/-- R26 (I4), R100: an engine that holds message `m` and is given a byte holds `m` with that byte at its end; so the
invariant holds of every message, however it was grouped into calls (R102). -/
def Obligations.AbsorbExtendsMessage : Prop :=
  ∀ (s : State) (m : List Byte) (b : Byte), s.Holds m →
    ∃ t : State, exec (.absorb b) s = .next t ∧ t.response = some .ok ∧ t.Holds (m ++ [b])

/-- R26 (I4): the message invariant. Where an engine that absorbs without a fault holds some message, every step, of
any word or event, gives a state where it still does. -/
def Obligations.StepKeepsMessageInvariant : Prop :=
  ∀ s t : State, (s.phase = .absorbing → s.fault = none → ∃ m, s.Holds m) → step s = .next t →
    t.phase = .absorbing → t.fault = none → ∃ m, t.Holds m

/-- R2, R160, R167: FINALIZE of an engine that holds message `m` answers the digest of `m`: the fold of the compression
function over the blocks of the padded message. For a message of 2^61 bytes or more that is the engine's answer, which
the standard does not define (R240, U13). -/
def Obligations.FinalizeAnswersMessageDigest : Prop :=
  ∀ (s : State) (m : List Byte), s.Holds m →
    ∃ t : State, exec .finalize s = .next t ∧ t.response = some (.digest (messageDigest m)) ∧
      t.digestValid = true ∧ t.digestOutput = messageDigest m

/-- R2, R192, R233: the contract. From any state whatever, RESET, one ABSORB per byte of a message and FINALIZE end with
the digest of that message as the response, and what the host presents next untouched. For a message of 2^61 bytes or
more that is the engine's answer, which the standard does not define (R240, U13). -/
def Obligations.WholeMessageYieldsDigest : Prop :=
  ∀ (s : State) (m : List Byte) (rest : List HostEvent),
    s.host = (messageWords m).map HostEvent.command ++ rest →
      ∃ t : State, runSteps (m.length + 2) s = .next t ∧
        t.response = some (.digest (messageDigest m)) ∧ t.phase = .finalized ∧ t.fault = none ∧ t.host = rest

/-- R192, R209, R242: a sequence of commands given to an engine with no fault runs without recording one exactly when it
stays in the engine's legal life. -/
def Obligations.FaultFreeIsLegalLife : Prop :=
  ∀ (commands : List Instr) (s : State), s.fault = none →
    s.host = commands.map (fun i => HostEvent.command (encode i)) →
      ((∀ o ∈ observations commands.length s, o.fault = 0#2) ↔ inLifecycle s.phase commands = true)

/-- R90, R242: in a run of any command words, legal or not, every word is answered, the code 3 is never observed, and a
digest is observed exactly while `digest_valid` is 1. -/
def Obligations.RunObservesAResponsePerWord : Prop :=
  ∀ (words : List CmdWord) (s : State), s.host = words.map HostEvent.command →
    (observations words.length s).length = words.length ∧
    ∀ o ∈ observations words.length s, o.response ≠ none ∧ o.fault ≠ 3#2 ∧ (o.digest.isSome = true ↔ o.digestValid = true)

/-- R167, R241: the padded message is a whole number of blocks, one or two more than the message's own whole blocks. -/
def Obligations.PaddedMessageBlocks : Prop :=
  ∀ m : List Byte, (paddedMessage m).length % 64 = 0 ∧
    (wholeBlocks (paddedMessage m)).length = m.length / 64 + (if m.length % 64 < 56 then 1 else 2) ∧
    (∀ z, z < paddingZeros m.length → (m.length + 1 + z + 8) % 64 ≠ 0)

/-- R88, R102: two `ABSORBN` lines are, word for word, one `ABSORBN` of the operands together. -/
def Obligations.ChunkingIsInvisible : Prop :=
  ∀ (xs ys : List Nat) (more : List SourceLine),
    expandProgram (.absorbN xs :: .absorbN ys :: more) = expandProgram (.absorbN (xs ++ ys) :: more)

/-- R87, R88: the words of the three command lines and of `.word`, the expansion of each of the five pseudo-commands,
and the assembly errors: a byte operand over 255, a raw word over 0x3FF, and, the model's choice (log entry 11), a
character of a text that is not ASCII. -/
def Obligations.PseudoCommandExpansions : Prop :=
  (expandLine .reset = some [encode .reset] ∧ expandLine .finalize = some [encode .finalize] ∧
    ∀ b : Byte, expandLine (.absorb b.toNat) = some [encode (.absorb b)]) ∧
  (∀ w : CmdWord, expandLine (.word w.toNat) = some [w]) ∧
  (∀ m : List Byte, expandLine (.absorbN (m.map BitVec.toNat)) = some (m.map fun b => encode (.absorb b))) ∧
  (∀ text : List Char, (∀ c ∈ text, c.toNat < 128) →
    expandLine (.absorbS text) = some (text.map fun c => encode (.absorb (BitVec.ofNat 8 c.toNat)))) ∧
  (∀ (b : Byte) (k : Nat), expandLine (.absorbR b.toNat k) = some (List.replicate k (encode (.absorb b)))) ∧
  (∀ m : List Byte, expandLine (.hash (m.map BitVec.toNat)) = some (messageWords m)) ∧
  (∀ text : List Char, (∀ c ∈ text, c.toNat < 128) →
    expandLine (.hashS text) = some (messageWords (text.map fun c => BitVec.ofNat 8 c.toNat))) ∧
  (∀ b : Nat, 256 ≤ b → expandLine (.absorb b) = none ∧ ∀ k, expandLine (.absorbR b k) = none) ∧
  (∀ v : Nat, 1024 ≤ v → expandLine (.word v) = none) ∧
  (∀ bs : List Nat, (∃ b ∈ bs, 256 ≤ b) → expandLine (.absorbN bs) = none ∧ expandLine (.hash bs) = none) ∧
  (∀ text : List Char, (∃ c ∈ text, 128 ≤ c.toNat) →
    expandLine (.absorbS text) = none ∧ expandLine (.hashS text) = none)

/-! ## Constants -/

/-- R50, R55: the round-constant ROM, index 0 first: what round `t` reads is the rule's table. -/
def Obligations.RoundConstantsAreTheTable : Prop :=
  (List.finRange 64).map kRom =
    [0x428a2f98#32, 0x71374491#32, 0xb5c0fbcf#32, 0xe9b5dba5#32,
     0x3956c25b#32, 0x59f111f1#32, 0x923f82a4#32, 0xab1c5ed5#32,
     0xd807aa98#32, 0x12835b01#32, 0x243185be#32, 0x550c7dc3#32,
     0x72be5d74#32, 0x80deb1fe#32, 0x9bdc06a7#32, 0xc19bf174#32] ++
    [0xe49b69c1#32, 0xefbe4786#32, 0x0fc19dc6#32, 0x240ca1cc#32,
     0x2de92c6f#32, 0x4a7484aa#32, 0x5cb0a9dc#32, 0x76f988da#32,
     0x983e5152#32, 0xa831c66d#32, 0xb00327c8#32, 0xbf597fc7#32,
     0xc6e00bf3#32, 0xd5a79147#32, 0x06ca6351#32, 0x14292967#32] ++
    [0x27b70a85#32, 0x2e1b2138#32, 0x4d2c6dfc#32, 0x53380d13#32,
     0x650a7354#32, 0x766a0abb#32, 0x81c2c92e#32, 0x92722c85#32,
     0xa2bfe8a1#32, 0xa81a664b#32, 0xc24b8b70#32, 0xc76c51a3#32,
     0xd192e819#32, 0xd6990624#32, 0xf40e3585#32, 0x106aa070#32] ++
    [0x19a4c116#32, 0x1e376c08#32, 0x2748774c#32, 0x34b0bcb5#32,
     0x391c0cb3#32, 0x4ed8aa4a#32, 0x5b9cca4f#32, 0x682e6ff3#32,
     0x748f82ee#32, 0x78a5636f#32, 0x84c87814#32, 0x8cc70208#32,
     0x90befffa#32, 0xa4506ceb#32, 0xbef9a3f7#32, 0xc67178f2#32]
end

