-- ==== Sys2Proof/Laws/Buffer.lean ====
section
/-! SUPPORT. What one byte of the buffer, of the digest and of the hexadecimal string reads after each operation, and
the canonical form of the buffer's cells. -/

namespace Sys2Proof.Machine

theorem bufStore_getElem (buf : Block) (p : BitVec 6) (b : Byte) (k : Nat) (h : k < 64) :
    (bufStore buf p b)[k] = if p.toNat = k then b else buf[k] := by
  simp only [bufStore, Vector.getElem_set]

theorem bufStore_same (buf : Block) (p : BitVec 6) (b : Byte) : (bufStore buf p b)[p.toNat] = b := by
  simp [bufStore_getElem]

theorem bufStore_other (buf : Block) (p : BitVec 6) (b : Byte) (k : Nat) (h : k < 64) (ne : k ≠ p.toNat) :
    (bufStore buf p b)[k] = buf[k] := by
  rw [bufStore_getElem, if_neg (Ne.symm ne)]

theorem bufZeroFill_getElem (buf : Block) (lo hi : Nat) (k : Nat) (h : k < 64) :
    (bufZeroFill buf lo hi)[k] = if lo ≤ k ∧ k < hi then 0x00#8 else buf[k] := by
  simp [bufZeroFill]

theorem bufStoreLength_getElem (buf : Block) (v : BitVec 64) (k : Nat) (h : k < 64) :
    (bufStoreLength buf v)[k] = if 56 ≤ k then lengthByte v (k - 56) else buf[k] := by
  simp [bufStoreLength]

theorem serialize_getElem (hash : HashWords) (k : Nat) (h : k < 32) :
    (serialize hash)[k] = (hash[k / 4] >>> (24 - 8 * (k % 4))).setWidth 8 := by
  simp [serialize]

theorem toHex_getElem (d : Digest) (p : Nat) (h : p < 64) :
    (toHex d)[p] =
      if p % 2 = 0 then hexDigit (d[p / 2].extractLsb' 4 4) else hexDigit (d[p / 2].extractLsb' 0 4) := by
  simp [toHex]

/-- Every buffer is in the canonical form, whatever operation made it: its cells are the addresses 0..63 in order. -/
theorem Memory.wf_bufCells (buf : Block) : Memory.wf (bufCells buf) := by
  have addresses : (List.finRange 64).map Fin.val = List.range 64 := by decide
  rw [Memory.wf, bufCells, List.map_map, ← addresses]
  rfl

/-- The buffers of the operations and of reset are canonical because every buffer is; equal cells are equal buffers. -/
theorem bufCells_injective (x y : Block) (h : bufCells x = bufCells y) : x = y := by
  apply Vector.ext
  intro k hk
  have e := congrArg (fun l => (l[k]?).map Prod.snd) h
  simpa [bufCells, hk] using e

end Sys2Proof.Machine
end

