-- ==== Sys2Proof/Laws/Loop.lean ====
section
/-! SUPPORT. Induction over the bounded loop. -/

namespace Sys2Proof.Machine

@[simp] theorem forUpTo_zero {n : Nat} {α : Type} (f : Fin n → α → α) (h : 0 ≤ n) (x : α) : forUpTo f 0 h x = x := rfl

theorem forUpTo_succ {n : Nat} {α : Type} (f : Fin n → α → α) (k : Nat) (h : k + 1 ≤ n) (x : α) :
    forUpTo f (k + 1) h x = f ⟨k, h⟩ (forUpTo f k (Nat.le_of_succ_le h) x) := rfl

/-- What each turn carries on holds after the first `k` turns. -/
theorem forUpTo_induct {n : Nat} {α : Type} (f : Fin n → α → α) (P : Nat → α → Prop) (x : α) (start : P 0 x)
    (turn : ∀ (i : Fin n) (y : α), P i.val y → P (i.val + 1) (f i y)) :
    ∀ (k : Nat) (h : k ≤ n), P k (forUpTo f k h x)
  | 0, _ => start
  | k + 1, h => turn ⟨k, h⟩ _ (forUpTo_induct f P x start turn k (Nat.le_of_succ_le h))

/-- What each turn carries on holds after the loop. -/
theorem forAll_induct {n : Nat} {α : Type} (f : Fin n → α → α) (P : Nat → α → Prop) (x : α) (start : P 0 x)
    (turn : ∀ (i : Fin n) (y : α), P i.val y → P (i.val + 1) (f i y)) : P n (forAll n f x) :=
  forUpTo_induct f P x start turn n (Nat.le_refl n)

end Sys2Proof.Machine
end

