-- ==== Sys2Proof/Laws/State.lean ====
section
/-! SUPPORT. For each named operation of Machine/Ops.lean, what every field of the state is after it: one lemma a field,
so that no proof unfolds a record update. A field a free value replaces has no lemma. Cite these lemmas with `simp only`
or `rw`: closing a field equation of a compressed state by `rfl` can make the kernel unfold the compression. -/

namespace Sys2Proof.Machine

@[simp] theorem State.respond_hash (r : Response) (s : State) : (s.respond r).hash = s.hash := rfl
@[simp] theorem State.respond_buf (r : Response) (s : State) : (s.respond r).buf = s.buf := rfl
@[simp] theorem State.respond_fill (r : Response) (s : State) : (s.respond r).fill = s.fill := rfl
@[simp] theorem State.respond_bits (r : Response) (s : State) : (s.respond r).bits = s.bits := rfl
@[simp] theorem State.respond_phase (r : Response) (s : State) : (s.respond r).phase = s.phase := rfl
@[simp] theorem State.respond_fault (r : Response) (s : State) : (s.respond r).fault = s.fault := rfl
@[simp] theorem State.respond_scratch (r : Response) (s : State) : (s.respond r).scratch = s.scratch := rfl
@[simp] theorem State.respond_response (r : Response) (s : State) : (s.respond r).response = some r := rfl
@[simp] theorem State.respond_host (r : Response) (s : State) : (s.respond r).host = s.host := rfl
@[simp] theorem State.respond_draws (r : Response) (s : State) : (s.respond r).draws = s.draws := rfl

@[simp] theorem State.raise_hash (c : FaultCause) (s : State) : (s.raise c).hash = s.hash := rfl
@[simp] theorem State.raise_buf (c : FaultCause) (s : State) : (s.raise c).buf = s.buf := rfl
@[simp] theorem State.raise_fill (c : FaultCause) (s : State) : (s.raise c).fill = s.fill := rfl
@[simp] theorem State.raise_bits (c : FaultCause) (s : State) : (s.raise c).bits = s.bits := rfl
@[simp] theorem State.raise_phase (c : FaultCause) (s : State) : (s.raise c).phase = s.phase := rfl
@[simp] theorem State.raise_fault (c : FaultCause) (s : State) : (s.raise c).fault = some c := rfl
@[simp] theorem State.raise_scratch (c : FaultCause) (s : State) : (s.raise c).scratch = s.scratch := rfl
@[simp] theorem State.raise_response (c : FaultCause) (s : State) : (s.raise c).response = some (.fault c) := rfl
@[simp] theorem State.raise_host (c : FaultCause) (s : State) : (s.raise c).host = s.host := rfl
@[simp] theorem State.raise_draws (c : FaultCause) (s : State) : (s.raise c).draws = s.draws := rfl

@[simp] theorem State.refuse_hash (c : FaultCause) (s : State) : (s.refuse c).hash = s.hash := rfl
@[simp] theorem State.refuse_buf (c : FaultCause) (s : State) : (s.refuse c).buf = s.buf := rfl
@[simp] theorem State.refuse_fill (c : FaultCause) (s : State) : (s.refuse c).fill = s.fill := rfl
@[simp] theorem State.refuse_bits (c : FaultCause) (s : State) : (s.refuse c).bits = s.bits := rfl
@[simp] theorem State.refuse_phase (c : FaultCause) (s : State) : (s.refuse c).phase = s.phase := rfl
@[simp] theorem State.refuse_fault (c : FaultCause) (s : State) : (s.refuse c).fault = s.fault := rfl
@[simp] theorem State.refuse_scratch (c : FaultCause) (s : State) : (s.refuse c).scratch = s.scratch := rfl
@[simp] theorem State.refuse_response (c : FaultCause) (s : State) : (s.refuse c).response = some (.fault c) := rfl
@[simp] theorem State.refuse_host (c : FaultCause) (s : State) : (s.refuse c).host = s.host := rfl
@[simp] theorem State.refuse_draws (c : FaultCause) (s : State) : (s.refuse c).draws = s.draws := rfl

@[simp] theorem State.storeByte_hash (k : BitVec 6) (b : Byte) (s : State) : (s.storeByte k b).hash = s.hash := rfl
@[simp] theorem State.storeByte_buf (k : BitVec 6) (b : Byte) (s : State) : (s.storeByte k b).buf = bufStore s.buf k b := rfl
@[simp] theorem State.storeByte_fill (k : BitVec 6) (b : Byte) (s : State) : (s.storeByte k b).fill = s.fill := rfl
@[simp] theorem State.storeByte_bits (k : BitVec 6) (b : Byte) (s : State) : (s.storeByte k b).bits = s.bits := rfl
@[simp] theorem State.storeByte_phase (k : BitVec 6) (b : Byte) (s : State) : (s.storeByte k b).phase = s.phase := rfl
@[simp] theorem State.storeByte_fault (k : BitVec 6) (b : Byte) (s : State) : (s.storeByte k b).fault = s.fault := rfl
@[simp] theorem State.storeByte_scratch (k : BitVec 6) (b : Byte) (s : State) : (s.storeByte k b).scratch = s.scratch := rfl
@[simp] theorem State.storeByte_response (k : BitVec 6) (b : Byte) (s : State) : (s.storeByte k b).response = s.response := rfl
@[simp] theorem State.storeByte_host (k : BitVec 6) (b : Byte) (s : State) : (s.storeByte k b).host = s.host := rfl
@[simp] theorem State.storeByte_draws (k : BitVec 6) (b : Byte) (s : State) : (s.storeByte k b).draws = s.draws := rfl

@[simp] theorem State.zeroFill_hash (lo hi : Nat) (s : State) : (s.zeroFill lo hi).hash = s.hash := rfl
@[simp] theorem State.zeroFill_buf (lo hi : Nat) (s : State) : (s.zeroFill lo hi).buf = bufZeroFill s.buf lo hi := rfl
@[simp] theorem State.zeroFill_fill (lo hi : Nat) (s : State) : (s.zeroFill lo hi).fill = s.fill := rfl
@[simp] theorem State.zeroFill_bits (lo hi : Nat) (s : State) : (s.zeroFill lo hi).bits = s.bits := rfl
@[simp] theorem State.zeroFill_phase (lo hi : Nat) (s : State) : (s.zeroFill lo hi).phase = s.phase := rfl
@[simp] theorem State.zeroFill_fault (lo hi : Nat) (s : State) : (s.zeroFill lo hi).fault = s.fault := rfl
@[simp] theorem State.zeroFill_scratch (lo hi : Nat) (s : State) : (s.zeroFill lo hi).scratch = s.scratch := rfl
@[simp] theorem State.zeroFill_response (lo hi : Nat) (s : State) : (s.zeroFill lo hi).response = s.response := rfl
@[simp] theorem State.zeroFill_host (lo hi : Nat) (s : State) : (s.zeroFill lo hi).host = s.host := rfl
@[simp] theorem State.zeroFill_draws (lo hi : Nat) (s : State) : (s.zeroFill lo hi).draws = s.draws := rfl

@[simp] theorem State.storeLength_hash (v : BitVec 64) (s : State) : (s.storeLength v).hash = s.hash := rfl
@[simp] theorem State.storeLength_buf (v : BitVec 64) (s : State) : (s.storeLength v).buf = bufStoreLength s.buf v := rfl
@[simp] theorem State.storeLength_fill (v : BitVec 64) (s : State) : (s.storeLength v).fill = s.fill := rfl
@[simp] theorem State.storeLength_bits (v : BitVec 64) (s : State) : (s.storeLength v).bits = s.bits := rfl
@[simp] theorem State.storeLength_phase (v : BitVec 64) (s : State) : (s.storeLength v).phase = s.phase := rfl
@[simp] theorem State.storeLength_fault (v : BitVec 64) (s : State) : (s.storeLength v).fault = s.fault := rfl
@[simp] theorem State.storeLength_scratch (v : BitVec 64) (s : State) : (s.storeLength v).scratch = s.scratch := rfl
@[simp] theorem State.storeLength_response (v : BitVec 64) (s : State) : (s.storeLength v).response = s.response := rfl
@[simp] theorem State.storeLength_host (v : BitVec 64) (s : State) : (s.storeLength v).host = s.host := rfl
@[simp] theorem State.storeLength_draws (v : BitVec 64) (s : State) : (s.storeLength v).draws = s.draws := rfl

@[simp] theorem State.compress_hash (s : State) : s.compress.hash = (compressRun s.scratch s.hash s.buf).2 := rfl
@[simp] theorem State.compress_buf (s : State) : s.compress.buf = s.buf := rfl
@[simp] theorem State.compress_fill (s : State) : s.compress.fill = s.fill := rfl
@[simp] theorem State.compress_bits (s : State) : s.compress.bits = s.bits := rfl
@[simp] theorem State.compress_phase (s : State) : s.compress.phase = s.phase := rfl
@[simp] theorem State.compress_fault (s : State) : s.compress.fault = s.fault := rfl
@[simp] theorem State.compress_scratch (s : State) : s.compress.scratch = (compressRun s.scratch s.hash s.buf).1 := rfl
@[simp] theorem State.compress_response (s : State) : s.compress.response = s.response := rfl
@[simp] theorem State.compress_host (s : State) : s.compress.host = s.host := rfl
@[simp] theorem State.compress_draws (s : State) : s.compress.draws = s.draws := rfl

@[simp] theorem State.releaseScratch_hash (s : State) : s.releaseScratch.hash = s.hash := rfl
@[simp] theorem State.releaseScratch_buf (s : State) : s.releaseScratch.buf = s.buf := rfl
@[simp] theorem State.releaseScratch_fill (s : State) : s.releaseScratch.fill = s.fill := rfl
@[simp] theorem State.releaseScratch_bits (s : State) : s.releaseScratch.bits = s.bits := rfl
@[simp] theorem State.releaseScratch_phase (s : State) : s.releaseScratch.phase = s.phase := rfl
@[simp] theorem State.releaseScratch_fault (s : State) : s.releaseScratch.fault = s.fault := rfl
@[simp] theorem State.releaseScratch_response (s : State) : s.releaseScratch.response = s.response := rfl
@[simp] theorem State.releaseScratch_host (s : State) : s.releaseScratch.host = s.host := rfl
@[simp] theorem State.releaseScratch_draws (s : State) : s.releaseScratch.draws = s.draws := rfl

@[simp] theorem State.consume_hash (s : State) : s.consume.hash = s.hash := rfl
@[simp] theorem State.consume_bits (s : State) : s.consume.bits = BitVec.ofNat 64 (512 * (Config.consumedBlocks s.draws s.toEngine).toNat) := rfl
@[simp] theorem State.consume_phase (s : State) : s.consume.phase = s.phase := rfl
@[simp] theorem State.consume_fault (s : State) : s.consume.fault = s.fault := rfl
@[simp] theorem State.consume_scratch (s : State) : s.consume.scratch = s.scratch := rfl
@[simp] theorem State.consume_response (s : State) : s.consume.response = s.response := rfl
@[simp] theorem State.consume_host (s : State) : s.consume.host = s.host := rfl
@[simp] theorem State.consume_draws (s : State) : s.consume.draws = s.draws := rfl

@[simp] theorem State.loadInitial_hash (s : State) : s.loadInitial.hash = iv := rfl
@[simp] theorem State.loadInitial_buf (s : State) : s.loadInitial.buf = s.buf := rfl
@[simp] theorem State.loadInitial_fill (s : State) : s.loadInitial.fill = 0#6 := rfl
@[simp] theorem State.loadInitial_bits (s : State) : s.loadInitial.bits = 0#64 := rfl
@[simp] theorem State.loadInitial_phase (s : State) : s.loadInitial.phase = .absorbing := rfl
@[simp] theorem State.loadInitial_fault (s : State) : s.loadInitial.fault = none := rfl
@[simp] theorem State.loadInitial_scratch (s : State) : s.loadInitial.scratch = s.scratch := rfl
@[simp] theorem State.loadInitial_response (s : State) : s.loadInitial.response = s.response := rfl
@[simp] theorem State.loadInitial_host (s : State) : s.loadInitial.host = s.host := rfl
@[simp] theorem State.loadInitial_draws (s : State) : s.loadInitial.draws = s.draws := rfl

@[simp] theorem State.hardwareReset_hash (i : Option CmdWord) (s : State) : (s.hardwareReset i).hash = iv := rfl
@[simp] theorem State.hardwareReset_fill (i : Option CmdWord) (s : State) : (s.hardwareReset i).fill = 0#6 := rfl
@[simp] theorem State.hardwareReset_bits (i : Option CmdWord) (s : State) : (s.hardwareReset i).bits = 0#64 := rfl
@[simp] theorem State.hardwareReset_phase (i : Option CmdWord) (s : State) : (s.hardwareReset i).phase = .absorbing := rfl
@[simp] theorem State.hardwareReset_fault (i : Option CmdWord) (s : State) : (s.hardwareReset i).fault = none := rfl
@[simp] theorem State.hardwareReset_response (i : Option CmdWord) (s : State) : (s.hardwareReset i).response = none := rfl
@[simp] theorem State.hardwareReset_host (i : Option CmdWord) (s : State) : (s.hardwareReset i).host = s.host := rfl
@[simp] theorem State.hardwareReset_draws (i : Option CmdWord) (s : State) : (s.hardwareReset i).draws = s.draws := rfl

@[simp] theorem State.take_hash (rest : List HostEvent) (s : State) : (s.take rest).hash = s.hash := rfl
@[simp] theorem State.take_buf (rest : List HostEvent) (s : State) : (s.take rest).buf = s.buf := rfl
@[simp] theorem State.take_fill (rest : List HostEvent) (s : State) : (s.take rest).fill = s.fill := rfl
@[simp] theorem State.take_bits (rest : List HostEvent) (s : State) : (s.take rest).bits = s.bits := rfl
@[simp] theorem State.take_phase (rest : List HostEvent) (s : State) : (s.take rest).phase = s.phase := rfl
@[simp] theorem State.take_fault (rest : List HostEvent) (s : State) : (s.take rest).fault = s.fault := rfl
@[simp] theorem State.take_scratch (rest : List HostEvent) (s : State) : (s.take rest).scratch = s.scratch := rfl
@[simp] theorem State.take_response (rest : List HostEvent) (s : State) : (s.take rest).response = s.response := rfl
@[simp] theorem State.take_host (rest : List HostEvent) (s : State) : (s.take rest).host = rest := rfl
@[simp] theorem State.take_draws (rest : List HostEvent) (s : State) : (s.take rest).draws = s.draws + 1 := rfl

@[simp] theorem State.idle_hash (s : State) : s.idle.hash = s.hash := rfl
@[simp] theorem State.idle_buf (s : State) : s.idle.buf = s.buf := rfl
@[simp] theorem State.idle_fill (s : State) : s.idle.fill = s.fill := rfl
@[simp] theorem State.idle_bits (s : State) : s.idle.bits = s.bits := rfl
@[simp] theorem State.idle_phase (s : State) : s.idle.phase = s.phase := rfl
@[simp] theorem State.idle_fault (s : State) : s.idle.fault = s.fault := rfl
@[simp] theorem State.idle_scratch (s : State) : s.idle.scratch = s.scratch := rfl
@[simp] theorem State.idle_response (s : State) : s.idle.response = none := rfl
@[simp] theorem State.idle_host (s : State) : s.idle.host = s.host := rfl
@[simp] theorem State.idle_draws (s : State) : s.idle.draws = s.draws := rfl

/-- The round index of a free scratch record is legal (R20). -/
theorem Scratch.ofWords_round_le (x : Fin 74 → Word) (r : Fin 65) : (Scratch.ofWords x r).t.toNat ≤ 64 := by
  have h := r.isLt
  unfold Scratch.ofWords
  simp only [BitVec.toNat_ofNat]
  omega

theorem State.releaseScratch_round_le (s : State) : s.releaseScratch.scratch.t.toNat ≤ 64 :=
  Scratch.ofWords_round_le _ _

theorem State.hardwareReset_round_le (i : Option CmdWord) (s : State) : (s.hardwareReset i).scratch.t.toNat ≤ 64 :=
  Scratch.ofWords_round_le _ _

/-- What FINALIZE leaves in `bits` is a whole number of blocks (R36). -/
theorem State.consume_bits_whole_blocks (s : State) : s.consume.bits.toNat % 512 = 0 := by
  rw [State.consume_bits, BitVec.toNat_ofNat]
  omega

end Sys2Proof.Machine
end

