-- ==== Sys2Proof/Laws/Ops.lean ====
section
/-! SUPPORT. For each shared operation, once, everything it can do; the provers cite these instead of unfolding. -/

namespace Sys2Proof.Machine

/-- The checks before ABSORB and FINALIZE end in one of three ways (R207). -/
theorem State.whenAbsorbing_cases (effect : State → State) (s : State) :
    (∃ c, s.fault = some c ∧ s.whenAbsorbing effect = s.refuse c) ∨
    (s.fault = none ∧ s.phase = .finalized ∧ s.whenAbsorbing effect = s.raise .invalidState) ∨
    (s.fault = none ∧ s.phase = .absorbing ∧ s.whenAbsorbing effect = effect s) := by
  unfold State.whenAbsorbing
  cases hf : s.fault with
  | some c => exact Or.inl ⟨c, rfl, rfl⟩
  | none =>
    cases hp : s.phase with
    | finalized => exact Or.inr (Or.inl ⟨rfl, rfl, rfl⟩)
    | absorbing => exact Or.inr (Or.inr ⟨rfl, rfl, rfl⟩)

theorem State.whenAbsorbing_faulted (effect : State → State) (s : State) (c : FaultCause) (h : s.fault = some c) :
    s.whenAbsorbing effect = s.refuse c := by
  simp only [State.whenAbsorbing, h]

theorem State.whenAbsorbing_finalized (effect : State → State) (s : State) (h : s.fault = none)
    (p : s.phase = .finalized) : s.whenAbsorbing effect = s.raise .invalidState := by
  simp only [State.whenAbsorbing, h, p]

theorem State.whenAbsorbing_effect (effect : State → State) (s : State) (h : s.fault = none)
    (p : s.phase = .absorbing) : s.whenAbsorbing effect = effect s := by
  simp only [State.whenAbsorbing, h, p]

/-- An illegal word ends in one of two ways (R201, R205). -/
theorem State.illegalWord_cases (s : State) :
    (∃ c, s.fault = some c ∧ s.illegalWord = s.refuse c) ∨
    (s.fault = none ∧ s.illegalWord = s.raise .illegalCommand) := by
  unfold State.illegalWord
  cases hf : s.fault with
  | some c => exact Or.inl ⟨c, rfl, rfl⟩
  | none => exact Or.inr ⟨rfl, rfl⟩

/-- ABSORB's effect is the completing step or the plain one (R100). -/
theorem State.absorbByte_cases (b : Byte) (s : State) :
    (s.fill = 63#6 ∧
      s.absorbByte b = ((s.storeByte s.fill b).completeBlock.releaseScratch).respond .ok) ∨
    (s.fill ≠ 63#6 ∧ s.absorbByte b = { s.storeByte s.fill b with fill := s.fill + 1#6 }.respond .ok) := by
  by_cases h : s.fill = 63#6
  · exact Or.inl ⟨h, by simp only [State.absorbByte, if_pos h]⟩
  · exact Or.inr ⟨h, by simp only [State.absorbByte, if_neg h]⟩

theorem exec_reset (s : State) : exec .reset s = .next (s.loadInitial.respond .ok) := rfl

theorem exec_absorb (b : Byte) (s : State) : exec (.absorb b) s = .next (s.whenAbsorbing (State.absorbByte b)) := rfl

theorem exec_finalize (s : State) : exec .finalize s = .next (s.whenAbsorbing State.finalizeMessage) := rfl

theorem runCommand_command (cmd : CmdWord) (i : Instr) (s : State) (h : Sys2Proof.decode cmd = .command i) :
    runCommand cmd s = exec i s := by
  simp only [runCommand, h]

theorem runCommand_illegal (cmd : CmdWord) (why : Reject) (s : State) (h : Sys2Proof.decode cmd = .illegal why) :
    runCommand cmd s = .next s.illegalWord := by
  simp only [runCommand, h]

theorem step_nothing_presented (s : State) (h : s.host = []) : step s = .next s.idle := by
  simp only [step, h]

theorem step_word_presented (s : State) (cmd : CmdWord) (rest : List HostEvent) (h : s.host = .command cmd :: rest) :
    step s = runCommand cmd (s.take rest) := by
  simp only [step, h]

theorem step_hardware_reset (s : State) (i : Option CmdWord) (rest : List HostEvent)
    (h : s.host = .hardwareReset i :: rest) : step s = .next ((s.take rest).hardwareReset i) := by
  simp only [step, h]

/-- A step is idling, a hardware reset, a command executed, or an illegal word refused; there is no fifth case. -/
theorem step_cases (s t : State) (h : step s = .next t) :
    (s.host = [] ∧ t = s.idle) ∨
    (∃ i rest, s.host = .hardwareReset i :: rest ∧ t = (s.take rest).hardwareReset i) ∨
    (∃ cmd rest i, s.host = .command cmd :: rest ∧ Sys2Proof.decode cmd = .command i ∧ exec i (s.take rest) = .next t) ∨
    (∃ cmd rest why, s.host = .command cmd :: rest ∧ Sys2Proof.decode cmd = .illegal why ∧
      t = (s.take rest).illegalWord) := by
  cases hs : s.host with
  | nil =>
    rw [step_nothing_presented s hs, Host.Outcome.next.injEq] at h
    exact Or.inl ⟨rfl, h.symm⟩
  | cons ev rest =>
    cases ev with
    | hardwareReset i =>
      rw [step_hardware_reset s i rest hs, Host.Outcome.next.injEq] at h
      exact Or.inr (Or.inl ⟨i, rest, rfl, h.symm⟩)
    | command cmd =>
      rw [step_word_presented s cmd rest hs] at h
      cases hd : Sys2Proof.decode cmd with
      | command i => exact Or.inr (Or.inr (Or.inl ⟨cmd, rest, i, rfl, hd, by rw [← runCommand_command cmd i _ hd, h]⟩))
      | illegal why =>
        rw [runCommand_illegal cmd why _ hd, Host.Outcome.next.injEq] at h
        exact Or.inr (Or.inr (Or.inr ⟨cmd, rest, why, rfl, hd, h.symm⟩))

end Sys2Proof.Machine
end

