-- ==== Sys2Proof/Laws/PerInstr.lean ====
section
/-! SUPPORT. A law of every command as syntax: its word lies in its own row of the opcode table (R83). -/

namespace Sys2Proof.Laws.TableRow

/-- The word of a command agrees with its row's match under its row's mask (R83). -/
def Statement (i : Instr) : Prop := encode i &&& rowMask i = rowMatch i

theorem reset : Statement .reset := by
  simp only [Statement, encode, rowMask, rowMatch]
  decide

theorem absorb (b : Byte) : Statement (.absorb b) := by
  simp only [Statement, encode, rowMask, rowMatch]
  revert b
  decide

theorem finalize : Statement .finalize := by
  simp only [Statement, encode, rowMask, rowMatch]
  decide

end Sys2Proof.Laws.TableRow
end

