-- ==== Sys2Proof/Laws/Plan.lean ====
section
/-! SUPPORT. The laws of the controller's plan (R193): it reads no operand, a refused command plans no block, and the
empty plan leaves the hash words. -/

namespace Sys2Proof.Machine

theorem blockOf_getElem (x : Fin 64 → Byte) (k : Nat) (h : k < 64) : (blockOf x)[k] = x ⟨k, h⟩ := by
  unfold blockOf
  simp

theorem compressionPlan_sameKind (i j : Instr) (h : sameKind i j = true) (fault : Option FaultCause) (phase : Phase)
    (fill : BitVec 6) : compressionPlan i fault phase fill = compressionPlan j fault phase fill := by
  cases i <;> cases j <;> simp [sameKind] at h <;> cases fault <;> cases phase <;> rfl

theorem compressionPlan_refused (i : Instr) (fault : Option FaultCause) (phase : Phase) (fill : BitVec 6)
    (h : fault ≠ none ∨ phase = .finalized) : compressionPlan i fault phase fill = [] := by
  cases i <;> cases fault <;> cases phase <;> simp_all [compressionPlan]

@[simp] theorem runPlan_nil (i : Instr) (s : State) : runPlan [] i s = s.hash := rfl

end Sys2Proof.Machine
end

