-- ==== Sys2Proof/Laws/Run.lean ====
section
/-! SUPPORT. Running several steps, one at a time. -/

namespace Sys2Proof.Machine

theorem runSteps_zero (s : State) : runSteps 0 s = .next s := rfl

/-- The first of `k + 1` steps, when it answers a next state. -/
theorem runSteps_next (k : Nat) (s t : State) (h : step s = .next t) : runSteps (k + 1) s = runSteps k t := by
  have first : Sys2Proof.core.step s = .next t := h
  simp only [runSteps, Host.Core.run, first]
  rfl

end Sys2Proof.Machine
end

