-- ==== Sys2Proof/Tests/Slice0.lean ====
section
/-! SUPPORT. Tests on values the spec gives (95_test_vectors.md, the rules' own examples), and for every statement with
hypotheses a witness that meets all of them, at the boundary values of its clauses. -/

namespace Sys2Proof.Tests

open Sys2Proof.Machine

/-! ## Small states -/

/-- An absorbing engine with the given buffer, cursor and bit counter. -/
def absorbing (buf : Block) (fill : BitVec 6) (bits : BitVec 64) : State :=
  { State.reset with buf := buf, fill := fill, bits := bits }

/-- A finalized engine with no fault, the digest of "abc" in `H` (TV-S2). -/
def finalized : State :=
  { State.reset with
    phase := .finalized
    hash := #v[0xba7816bf#32, 0x8f01cfea#32, 0x414140de#32, 0x5dae2223#32,
               0xb00361a3#32, 0x96177a9c#32, 0xb410ff61#32, 0xf20015ad#32] }

/-- An engine that has recorded a fault. -/
def faulted (c : FaultCause) (p : Phase) : State := { State.reset with fault := some c, phase := p }

/-- The host presents one word. -/
def presenting (w : CmdWord) (s : State) : State := { s with host := [.command w] }

/-- 64 bytes `61`. -/
def allA : Block := Vector.replicate 64 0x61#8

/-- "abc" at the bottom of the buffer, stale bytes `aa` above it. -/
def abcBuf : Block := (((Vector.replicate 64 0xaa#8).set 0 0x61#8).set 1 0x62#8).set 2 0x63#8

/-- The padded block of "abc" (TV-D20). -/
def abcBlock : Block :=
  (((((Vector.replicate 64 0x00#8).set 0 0x61#8).set 1 0x62#8).set 2 0x63#8).set 3 0x80#8).set 63 0x18#8

/-- A scratch record of known values. -/
def scratch0 : Scratch := Scratch.ofWords (fun _ => 0xdeadbeef#32) 0

/-- A field of the next state, if there is one. -/
def after {α : Type} (f : State → α) : Host.Outcome State Fault Refusal → Option α
  | .next t => some (f t)
  | .fault _ => none
  | .refused _ => none

/-! ## Encoding (R83, TV-D12) and its range checks (R87) -/

theorem test_decode_reset : decode 0b0000000000#10 = .command .reset := by decide

theorem test_decode_absorb : decode 0b0101100001#10 = .command (.absorb 0x61#8) := by decide

theorem test_decode_absorb_top : decode 0b0111111111#10 = .command (.absorb 0xFF#8) := by decide

theorem test_decode_finalize : decode 0b1000000000#10 = .command .finalize := by decide

theorem test_decode_illegal :
    decode 0x001#10 = .illegal .resetOperand ∧ decode 0x0ff#10 = .illegal .resetOperand ∧
    decode 0x201#10 = .illegal .finalizeOperand ∧ decode 0x2ff#10 = .illegal .finalizeOperand ∧
    decode 0x300#10 = .illegal .unassignedOp ∧ decode 0x3ff#10 = .illegal .unassignedOp := by decide

theorem test_encode : encode .reset = 0x000#10 ∧ encode (.absorb 0x61#8) = 0x161#10 ∧ encode .finalize = 0x200#10 := by
  decide

theorem test_decode_counts :
    ((List.range 1024).filter fun w => (decode (BitVec.ofNat 10 w)).toOption.isNone).length = 766 := by decide +kernel

theorem test_decodeTableWord :
    decodeTableWord 10 0x000 = some .reset ∧ decodeTableWord 16 0x1ff = some (.absorb 0xff#8) ∧
    decodeTableWord 16 0x200 = some .finalize ∧ decodeTableWord 10 0x3ff = none ∧ decodeTableWord 16 0x400 = none := by
  decide

theorem test_wellFormed_commands :
    Instr.wellFormed .reset = true ∧ Instr.wellFormed (.absorb 0xff#8) = true ∧ Instr.wellFormed .finalize = true := by
  decide

theorem test_byte_operand_out_of_range : byteInRange 255 = true ∧ byteInRange 256 = false := by decide

theorem test_raw_word_out_of_range : wordInRange 1023 = true ∧ wordInRange 1024 = false := by decide

theorem test_text_not_ascii : asciiInRange 'a' = true ∧ asciiInRange 'é' = false := by decide

theorem test_quoted_character_not_printable :
    printableAscii '~' = true ∧ printableAscii ' ' = true ∧ printableAscii '\n' = false := by decide

theorem test_line_checks_refuse :
    expandLine (.absorb 256) = none ∧ expandLine (.word 1024) = none ∧ expandLine (.absorbN [1, 256]) = none ∧
    expandLine (.hash [300]) = none ∧ expandLine (.absorbR 256 2) = none ∧ expandLine (.absorbS ['é']) = none ∧
    expandLine (.hashS ['é']) = none := by decide

/-! ## Text form (R87, R88; programs P2, P7) -/

theorem test_assemble_hashs :
    assemble "HASHS \"abc\"".toList = some [0x000#10, 0x161#10, 0x162#10, 0x163#10, 0x200#10] := by decide

theorem test_assemble_program :
    assemble "RESET\nABSORB 'a'\n.word 0x001  ; not a RESET\n\nABSORBR 98, 2".toList =
      some [0x000#10, 0x161#10, 0x001#10, 0x162#10, 0x162#10] := by decide

theorem test_assemble_error : assemble "ABSORB 256".toList = none ∧ assemble "reset".toList = none := by decide

theorem test_assemble_pseudo :
    assemble "ABSORBN 0x61 'b' 99 ; three bytes".toList = some [0x161#10, 0x162#10, 0x163#10] ∧
    assemble "ABSORBR 'a', 2\nABSORBS \"\"".toList = some [0x161#10, 0x161#10] := by decide

/-! ## Word arithmetic and round functions (TV-D1 to TV-D9) -/

theorem test_add32 :
    add32 0xffffffff#32 0x00000001#32 = 0x00000000#32 ∧ add32 0x12345678#32 0xedcba988#32 = 0x00000000#32 ∧
    add32 0x6a09e667#32 0x506e3058#32 = 0xba7816bf#32 := by decide

theorem test_rotr :
    rotr 0x00000001#32 1 = 0x80000000#32 ∧ rotr 0x80000000#32 31 = 0x00000001#32 ∧
    rotr 0x12345678#32 7 = 0xf02468ac#32 ∧ rotr 0xdeadbeef#32 22 = 0xb6fbbf7a#32 := by decide

theorem test_shr : shr 0x80000000#32 3 = 0x10000000#32 ∧ shr 0x12345678#32 10 = 0x00048d15#32 := by decide

theorem test_ch :
    ch 0xf0f0f0f0#32 0xaaaaaaaa#32 0x55555555#32 = 0xa5a5a5a5#32 ∧
    ch 0x510e527f#32 0x9b05688c#32 0x1f83d9ab#32 = 0x1f85c98c#32 := by decide

theorem test_maj :
    maj 0xf0f0f0f0#32 0xcccccccc#32 0xaaaaaaaa#32 = 0xe8e8e8e8#32 ∧
    maj 0x6a09e667#32 0xbb67ae85#32 0x3c6ef372#32 = 0x3a6fe667#32 := by decide

theorem test_bigSigma :
    bigSigma0 0x00000001#32 = 0x40080400#32 ∧ bigSigma0 0xdeadbeef#32 = 0xb62e25ac#32 ∧
    bigSigma1 0x00000001#32 = 0x04200080#32 ∧ bigSigma1 0xdeadbeef#32 = 0x345e14a3#32 := by decide

theorem test_smallSigma :
    smallSigma0 0xffffffff#32 = 0x1fffffff#32 ∧ smallSigma0 0xdeadbeef#32 = 0xabd31b0b#32 ∧
    smallSigma1 0xffffffff#32 = 0x003fffff#32 ∧ smallSigma1 0xdeadbeef#32 = 0x689dbfec#32 := by decide

/-! ## Buffer accesses, schedule, rounds (TV-D10, TV-D11, TV-D20 to TV-D22) -/

theorem test_word_load : bufLoadWord abcBlock 0 = 0x61626380#32 ∧ bufLoadWord abcBlock 15 = 0x00000018#32 := by
  decide +kernel

theorem test_length_store :
    (bufStoreLength allA 0x0000000100000000#64).toList.drop 55 =
      [0x61#8, 0x00#8, 0x00#8, 0x00#8, 0x01#8, 0x00#8, 0x00#8, 0x00#8, 0x00#8] := by decide +kernel

theorem test_schedule_registers :
    ((loadSchedule abcBlock scratch0).w[16], (loadSchedule abcBlock scratch0).w[19],
      (loadSchedule abcBlock scratch0).w[63]) = (0x61626380#32, 0x600003c6#32, 0x12b1edeb#32) := by decide +kernel

theorem test_schedule_function : (schedule abcBlock).drop 60 = [0xa43fcf15#32, 0x668b2ff8#32, 0xeeaba2cc#32, 0x12b1edeb#32] := by
  decide +kernel

theorem test_round_zero :
    let r := compressRound 0 (loadWorking iv (loadSchedule abcBlock scratch0))
    (r.t1, r.t2, r.a, r.e, r.h, r.t) =
      (0x54da50e8#32, 0x08909ae5#32, 0x5d6aebcd#32, 0xfa2a4622#32, 0x1f83d9ab#32, 1#7) := by decide +kernel

theorem test_compress_abc :
    (compressRun scratch0 iv abcBlock).2.toList =
      [0xba7816bf#32, 0x8f01cfea#32, 0x414140de#32, 0x5dae2223#32,
       0xb00361a3#32, 0x96177a9c#32, 0xb410ff61#32, 0xf20015ad#32] := by decide +kernel

theorem test_compress_function_abc :
    (compress iv abcBlock).toList =
      [0xba7816bf#32, 0x8f01cfea#32, 0x414140de#32, 0x5dae2223#32,
       0xb00361a3#32, 0x96177a9c#32, 0xb410ff61#32, 0xf20015ad#32] := by decide +kernel

/-! ## Digest and hexadecimal form (TV-D13) -/

theorem test_serialize :
    (serialize finalized.hash).toList.take 4 = [0xba#8, 0x78#8, 0x16#8, 0xbf#8] ∧
    (serialize finalized.hash).toList.drop 28 = [0xf2#8, 0x00#8, 0x15#8, 0xad#8] := by decide +kernel

theorem test_toHex :
    (toHex (Vector.replicate 32 0x0f#8)).toList.take 4 = [0x30#8, 0x66#8, 0x30#8, 0x66#8] ∧
    (toHex (Vector.replicate 32 0xa0#8)).toList.take 2 = [0x61#8, 0x30#8] := by decide +kernel

theorem test_message_digest_abc :
    (messageDigest [0x61#8, 0x62#8, 0x63#8]).toList.take 8 =
      [0xba#8, 0x78#8, 0x16#8, 0xbf#8, 0x8f#8, 0x01#8, 0xcf#8, 0xea#8] := by decide +kernel

/-! ## RESET (R190; TV-D70) -/

theorem test_reset_clears_fault :
    after (fun t => (t.fault, t.phase, t.fill, t.bits)) (exec .reset (faulted .invalidState .finalized)) =
      some (none, .absorbing, 0#6, 0#64) ∧
    after (fun t => (t.hash.toList.take 1, t.response)) (exec .reset (faulted .invalidState .finalized)) =
      some ([0x6a09e667#32], some .ok) := by decide +kernel

/-! ## ABSORB (R100; TV-D60, TV-D61) -/

theorem test_absorb_stores_and_advances :
    after (fun t => (t.buf.toList.take 2, t.fill, t.bits, t.response)) (exec (.absorb 0x62#8) (absorbing allA 1#6 0#64)) =
      some ([0x61#8, 0x62#8], 2#6, 0#64, some .ok) := by decide +kernel

theorem test_absorb_completes_block :
    after (fun t => (t.hash.toList, t.fill, t.bits))
      (exec (.absorb 0x61#8) (absorbing (allA.set 63 0xaa#8) 63#6 0xfffffffffffffe00#64)) =
      some ([0xdf5bb81c#32, 0xe81e0626#32, 0xfb45a894#32, 0x4fd40f31#32,
             0xb25e6816#32, 0xd6d499c1#32, 0xab904929#32, 0x00635e66#32], 0#6, 0#64) := by decide +kernel

/-! ## FINALIZE (R160; TV-D32, TV-D34) -/

theorem test_finalize_abc :
    after (fun t => (t.hash.toList, t.phase, t.fault, t.digestValid)) (exec .finalize (absorbing abcBuf 3#6 0#64)) =
      some ([0xba7816bf#32, 0x8f01cfea#32, 0x414140de#32, 0x5dae2223#32,
             0xb00361a3#32, 0x96177a9c#32, 0xb410ff61#32, 0xf20015ad#32], .finalized, none, true) := by decide +kernel

theorem test_finalize_two_blocks :
    after (fun t => t.hash.toList) (exec .finalize (absorbing allA 56#6 0#64)) =
      some [0xb35439a4#32, 0xac6f0948#32, 0xb6d6f9e3#32, 0xc6af0f5f#32,
            0x590ce20f#32, 0x1bde7090#32, 0xef797068#32, 0x6ec6738a#32] := by decide +kernel

/-! ## Faults and steps (TV-D70) -/

theorem test_absorb_after_finalize :
    after (fun t => (t.fault, t.response, t.phase)) (step (presenting 0x162#10 finalized)) =
      some (some .invalidState, some (.fault .invalidState), .finalized) := by decide +kernel

theorem test_illegal_word_in_finalized_records_one :
    after (fun t => (faultCode t.fault, t.phase)) (step (presenting 0x001#10 finalized)) = some (1#2, .finalized) := by
  decide +kernel

theorem test_first_fault_is_kept :
    after (fun t => (faultCode t.fault, t.response)) (step (presenting 0x3ff#10 (faulted .invalidState .finalized))) =
      some (2#2, some (.fault .invalidState)) := by decide +kernel

theorem test_hardware_reset_interrupts :
    after (fun t => (t.response, t.phase, t.fault, t.host))
      (step { finalized with host := [.hardwareReset (some 0x161#10), .command 0x200#10] }) =
      some (none, .absorbing, none, [.command 0x200#10]) := by decide +kernel

theorem test_first_word_after_reset_runs :
    after (fun t => (t.fill, t.response)) (step (State.reset.withFetchWord 16 0x161)) = some (1#6, some .ok) ∧
    after (fun t => t.response) (step (State.reset.withFetchWord 16 0x000)) = some (some .ok) := by decide +kernel

theorem test_finalize_first_after_reset :
    after (fun t => t.hash.toList) (step (State.reset.withFetchWord 16 0x200)) =
      some [0xe3b0c442#32, 0x98fc1c14#32, 0x9afbf4c8#32, 0x996fb924#32,
            0x27ae41e4#32, 0x649b934c#32, 0xa495991b#32, 0x7852b855#32] := by decide +kernel

theorem test_digest_output_valid :
    finalized.digestValid = true ∧ finalized.digestOutput.toList.take 2 = [0xba#8, 0x78#8] ∧
    (faulted .invalidState .finalized).digestValid = false := by decide +kernel

/-! ## Witnesses: the hypotheses of each statement are met -/

theorem witness_StepRunsDecodedCommand :
    (presenting 0x161#10 State.reset).host = .command 0x161#10 :: [] ∧ decode 0x161#10 = .command (.absorb 0x61#8) ∧
    decode 0x000#10 = .command .reset ∧ decode 0x200#10 = .command .finalize := by decide

/-- One state for each branch of R207, with its word presented. -/
theorem witness_StepFollowsCheckOrder :
    ((presenting 0x000#10 finalized).host = .command 0x000#10 :: [] ∧ decode 0x000#10 = .command .reset) ∧
    ((presenting 0x3ff#10 (faulted .illegalCommand .absorbing)).host = .command 0x3ff#10 :: [] ∧
      decode 0x3ff#10 ≠ .command .reset ∧
      (presenting 0x3ff#10 (faulted .illegalCommand .absorbing)).fault = some .illegalCommand) ∧
    ((presenting 0x001#10 finalized).host = .command 0x001#10 :: [] ∧
      (presenting 0x001#10 finalized).fault = none ∧ decode 0x001#10 = .illegal .resetOperand) ∧
    ((presenting 0x200#10 finalized).host = .command 0x200#10 :: [] ∧ (presenting 0x200#10 finalized).fault = none ∧
      (presenting 0x200#10 finalized).phase = .finalized ∧ decode 0x200#10 = .command .finalize) ∧
    ((presenting 0x1ff#10 State.reset).host = .command 0x1ff#10 :: [] ∧ (presenting 0x1ff#10 State.reset).fault = none ∧
      (presenting 0x1ff#10 State.reset).phase = .absorbing ∧ decode 0x1ff#10 = .command (.absorb 0xff#8)) ∧
    ((presenting 0x200#10 State.reset).host = .command 0x200#10 :: [] ∧ (presenting 0x200#10 State.reset).fault = none ∧
      (presenting 0x200#10 State.reset).phase = .absorbing ∧ decode 0x200#10 = .command .finalize) := by decide

theorem witness_EveryWordIsAnswered : (presenting 0x3ff#10 finalized).host = .command 0x3ff#10 :: [] := rfl

theorem witness_IdleHoldsState : State.reset.host = [] := rfl

theorem witness_HardwareResetGivesResetState :
    ({ finalized with host := [.hardwareReset none] } : State).host = .hardwareReset none :: [] ∧
    ({ finalized with host := [.hardwareReset (some 0x200#10)] } : State).host = .hardwareReset (some 0x200#10) :: [] :=
  ⟨rfl, rfl⟩

theorem witness_ResetForgetsThePast : finalized.host = (absorbing allA 5#6 512#64).host := rfl

theorem witness_AbsorbStoresByteAtCursor :
    (absorbing allA 62#6 0#64).fault = none ∧ (absorbing allA 62#6 0#64).phase = .absorbing ∧
    (absorbing allA 62#6 0#64).fill ≠ 63#6 ∧ (absorbing allA 0#6 0#64).fill ≠ 63#6 := by decide

theorem witness_AbsorbCompletesBlock :
    (absorbing allA 63#6 0#64).fault = none ∧ (absorbing allA 63#6 0#64).phase = .absorbing ∧
    (absorbing allA 63#6 0#64).fill = 63#6 := by decide

/-- ABSORB answers a next state in each case of its frame: plain, completing, finalized, faulted. -/
theorem witness_AbsorbFrame :
    (∃ t, exec (.absorb 0x61#8) (absorbing allA 62#6 0#64) = .next t) ∧
    (∃ t, exec (.absorb 0x61#8) (absorbing allA 63#6 0#64) = .next t) ∧
    (∃ t, exec (.absorb 0x61#8) finalized = .next t) ∧
    (∃ t, exec (.absorb 0x61#8) (faulted .illegalCommand .absorbing) = .next t) :=
  ⟨⟨_, rfl⟩, ⟨_, rfl⟩, ⟨_, rfl⟩, ⟨_, rfl⟩⟩

theorem witness_AbsorbSequenceCounts :
    ({ absorbing allA 63#6 0#64 with host := [.command 0x161#10, .command 0x162#10] } : State).fault = none ∧
    ({ absorbing allA 63#6 0#64 with host := [.command 0x161#10, .command 0x162#10] } : State).phase = .absorbing ∧
    ({ absorbing allA 63#6 0#64 with host := [.command 0x161#10, .command 0x162#10] } : State).host =
      [0x61#8, 0x62#8].map (fun b => HostEvent.command (encode (.absorb b))) ++ [] := by decide

/-- The block of R163 for a tail of 55 bytes: the tail, `0x80`, no zero byte, the length 440. -/
def block55 : Block := ((allA.set 55 0x80#8).set 62 0x01#8).set 63 0xb8#8

/-- The length bytes of `block55` between the padding byte and its last two bytes are zero. -/
def block55Full : Block :=
  (((((block55.set 56 0x00#8).set 57 0x00#8).set 58 0x00#8).set 59 0x00#8).set 60 0x00#8).set 61 0x00#8

theorem witness_FinalizeOneBlock_55 :
    (absorbing allA 55#6 0#64).fault = none ∧ (absorbing allA 55#6 0#64).phase = .absorbing ∧
    (absorbing allA 55#6 0#64).fill.toNat < 56 ∧
    (∀ k (h : k < 64), block55Full[k] =
      if k < (absorbing allA 55#6 0#64).fill.toNat then (absorbing allA 55#6 0#64).buf[k]
      else if k = (absorbing allA 55#6 0#64).fill.toNat then 0x80#8
      else if k < 56 then 0x00#8
      else (BitVec.ofNat 64 ((absorbing allA 55#6 0#64).bits.toNat + 8 * (absorbing allA 55#6 0#64).fill.toNat)).extractLsb'
        (56 - 8 * (k - 56)) 8) := by decide +kernel

theorem witness_FinalizeOneBlock_abc :
    (absorbing abcBuf 3#6 0#64).fault = none ∧ (absorbing abcBuf 3#6 0#64).phase = .absorbing ∧
    (absorbing abcBuf 3#6 0#64).fill.toNat < 56 ∧
    (∀ k (h : k < 64), abcBlock[k] =
      if k < (absorbing abcBuf 3#6 0#64).fill.toNat then (absorbing abcBuf 3#6 0#64).buf[k]
      else if k = (absorbing abcBuf 3#6 0#64).fill.toNat then 0x80#8
      else if k < 56 then 0x00#8
      else (BitVec.ofNat 64 ((absorbing abcBuf 3#6 0#64).bits.toNat + 8 * (absorbing abcBuf 3#6 0#64).fill.toNat)).extractLsb'
        (56 - 8 * (k - 56)) 8) := by decide +kernel

/-- The second block for a tail of 56 bytes (TV-D34). -/
def block56Second : Block := ((Vector.replicate 64 0x00#8).set 62 0x01#8).set 63 0xc0#8

/-- The first block for a tail of 56 bytes (TV-D34). -/
def block56First : Block := Vector.ofFn fun k => if k.val < 56 then 0x61#8 else if k.val = 56 then 0x80#8 else 0x00#8

theorem witness_FinalizeTwoBlocks_56 :
    (absorbing allA 56#6 0#64).fault = none ∧ (absorbing allA 56#6 0#64).phase = .absorbing ∧
    56 ≤ (absorbing allA 56#6 0#64).fill.toNat ∧
    (∀ k (h : k < 64), block56First[k] =
      if k < (absorbing allA 56#6 0#64).fill.toNat then (absorbing allA 56#6 0#64).buf[k]
      else if k = (absorbing allA 56#6 0#64).fill.toNat then 0x80#8 else 0x00#8) ∧
    (∀ k (h : k < 64), block56Second[k] =
      if k < 56 then 0x00#8
      else (BitVec.ofNat 64 ((absorbing allA 56#6 0#64).bits.toNat + 8 * (absorbing allA 56#6 0#64).fill.toNat)).extractLsb'
        (56 - 8 * (k - 56)) 8) := by decide +kernel

/-- The blocks for a tail of 63 bytes (TV-D36). -/
theorem witness_FinalizeTwoBlocks_63 :
    (∀ k (h : k < 64), (allA.set 63 0x80#8)[k] =
      if k < (absorbing allA 63#6 0#64).fill.toNat then (absorbing allA 63#6 0#64).buf[k]
      else if k = (absorbing allA 63#6 0#64).fill.toNat then 0x80#8 else 0x00#8) ∧
    (∀ k (h : k < 64), (((Vector.replicate 64 0x00#8).set 62 0x01#8).set 63 0xf8#8)[k] =
      if k < 56 then 0x00#8
      else (BitVec.ofNat 64 ((absorbing allA 63#6 0#64).bits.toNat + 8 * (absorbing allA 63#6 0#64).fill.toNat)).extractLsb'
        (56 - 8 * (k - 56)) 8) := by decide +kernel

theorem witness_FinalizeFrame :
    (∃ t, exec .finalize (absorbing allA 56#6 0#64) = .next t) ∧ (∃ t, exec .finalize finalized = .next t) ∧
    (∃ t, exec .finalize (faulted .illegalCommand .absorbing) = .next t) := ⟨⟨_, rfl⟩, ⟨_, rfl⟩, ⟨_, rfl⟩⟩

theorem witness_TotalBitsDoNotCarry : (0xfffffffffffffe00#64).toNat % 512 = 0 ∧ (0#64).toNat % 512 = 0 := by decide

theorem witness_FaultStopRefusesAllButReset :
    (presenting 0x3ff#10 (faulted .invalidState .finalized)).fault = some .invalidState ∧
    (presenting 0x3ff#10 (faulted .invalidState .finalized)).host = .command 0x3ff#10 :: [] ∧
    decode 0x3ff#10 ≠ .command .reset ∧ decode 0x161#10 ≠ .command .reset ∧ decode 0x200#10 ≠ .command .reset := by decide

theorem witness_InvalidStateAfterFinalize :
    finalized.fault = none ∧ finalized.phase = .finalized ∧ Instr.absorb 0x61#8 ≠ .reset ∧ Instr.finalize ≠ .reset := by
  decide

theorem witness_FaultsArePrecise :
    ∃ t, (presenting 0x001#10 finalized).host = .command 0x001#10 :: [] ∧ step (presenting 0x001#10 finalized) = .next t ∧
      t.response = some (.fault .illegalCommand) := ⟨_, rfl, rfl, rfl⟩

theorem witness_FaultedEngineIsQuiescent :
    ∃ t, (presenting 0x161#10 (faulted .illegalCommand .absorbing)).fault = some .illegalCommand ∧
      step (presenting 0x161#10 (faulted .illegalCommand .absorbing)) = .next t ∧
      (∀ rest, (presenting 0x161#10 (faulted .illegalCommand .absorbing)).host ≠ .command (encode .reset) :: rest) ∧
      (∀ i rest, (presenting 0x161#10 (faulted .illegalCommand .absorbing)).host ≠ .hardwareReset i :: rest) := by
  refine ⟨_, rfl, rfl, ?_, ?_⟩
  · intro rest h
    simp [presenting, encode] at h
  · intro i rest h
    simp [presenting] at h

/-- The phase changes by FINALIZE, and back by RESET and by the hardware reset. -/
theorem witness_PhaseChangesOnlyBy :
    (∃ t, step (presenting 0x200#10 State.reset) = .next t ∧ t.phase ≠ (presenting 0x200#10 State.reset).phase) ∧
    (∃ t, step (presenting 0x000#10 finalized) = .next t ∧ t.phase ≠ (presenting 0x000#10 finalized).phase) ∧
    (∃ t, step { finalized with host := [.hardwareReset none] } = .next t ∧ t.phase ≠ finalized.phase) := by
  refine ⟨⟨_, rfl, ?_⟩, ⟨_, rfl, ?_⟩, ⟨_, rfl, ?_⟩⟩ <;> exact Phase.noConfusion

/-- The hash words change by RESET; `test_absorb_completes_block` and `test_finalize_abc` show the other two ways. -/
theorem witness_HashWrittenOnlyBy :
    ∃ t, step (presenting 0x000#10 finalized) = .next t ∧ t.hash ≠ (presenting 0x000#10 finalized).hash :=
  ⟨_, rfl, by decide +kernel⟩

theorem witness_DigestOutputIsHeld :
    ∃ t, step finalized = .next t ∧ finalized.digestValid = true ∧ t.digestValid = true := ⟨_, rfl, by decide, by decide⟩

/-- A state that meets the invariants, with a response and a whole block counted, and its step. -/
theorem witness_StepKeepsInvariants :
    ∃ s t : State, s.Inv ∧ s.bits = 512#64 ∧ s.response = some .ok ∧ step s = .next t := by
  refine ⟨{ absorbing allA 0#6 512#64 with response := some .ok }, _, ?_, rfl, rfl, rfl⟩
  refine ⟨by decide, ?_, ?_, ?_, ?_, ?_⟩
  · exact Scratch.ofWords_round_le _ _
  · intro h
    exact absurd h (by decide)
  · intro c h
    exact absurd (Option.some.inj h) Response.noConfusion
  · intro _
    exact ⟨rfl, rfl⟩
  · intro d h
    exact absurd (Option.some.inj h) Response.noConfusion

theorem stale_byte_only : ∀ j (h : j < 64), j < 2 → abcBuf[j] = (abcBuf.set 40 0x55#8)[j] := by decide +kernel

/-- Two states that differ in stale bytes and in scratch, and a step of one. -/
theorem witness_UnspecifiedStateIsNeverRead :
    ∃ s t s' : State, s.SameReadable t ∧ s.buf ≠ t.buf ∧ s.host = [.command 0x163#10] ∧ step s = .next s' := by
  refine ⟨presenting 0x163#10 (absorbing abcBuf 2#6 0#64),
    presenting 0x163#10 { absorbing (abcBuf.set 40 0x55#8) 2#6 0#64 with scratch := scratch0 }, _, ?_, ?_, rfl, rfl⟩
  · refine ⟨rfl, rfl, rfl, rfl, rfl, fun _ => rfl, fun _ => rfl, ?_⟩
    intro _ k h hk
    have small : k < 2 := hk
    exact stale_byte_only k h small
  · show abcBuf ≠ abcBuf.set 40 0x55#8
    decide +kernel

theorem witness_ControlIgnoresData :
    sameKind (.absorb 0x00#8) (.absorb 0xff#8) = true ∧ sameKind .finalize .finalize = true ∧
    sameKind .reset .reset = true ∧
    (∃ s' t', exec (.absorb 0x00#8) (absorbing allA 63#6 0#64) = .next s' ∧
      exec (.absorb 0xff#8) (absorbing abcBuf 63#6 512#64) = .next t' ∧
      (absorbing allA 63#6 0#64).phase = (absorbing abcBuf 63#6 512#64).phase ∧
      (absorbing allA 63#6 0#64).fault = (absorbing abcBuf 63#6 512#64).fault ∧
      (absorbing allA 63#6 0#64).fill = (absorbing abcBuf 63#6 512#64).fill) :=
  ⟨rfl, rfl, rfl, _, _, rfl, rfl, rfl, rfl, rfl⟩

/-- Two engines with equal cursors and different bytes finalize, at the cursors on either side of the second block, and
the plan has one block or two. -/
theorem witness_ControlIgnoresData_finalize :
    (∃ s' t', exec .finalize (absorbing allA 55#6 0#64) = .next s' ∧
      exec .finalize (absorbing abcBuf 55#6 512#64) = .next t') ∧
    (∃ s' t', exec .finalize (absorbing allA 56#6 0#64) = .next s' ∧
      exec .finalize (absorbing abcBuf 56#6 512#64) = .next t') ∧
    (compressionPlan .finalize none .absorbing 55#6).length = 1 ∧
    (compressionPlan .finalize none .absorbing 56#6).length = 2 ∧
    (compressionPlan (.absorb 0x00#8) none .absorbing 63#6).length = 1 ∧
    (compressionPlan (.absorb 0x00#8) none .absorbing 62#6).length = 0 ∧ Instr.finalize ≠ .reset :=
  ⟨⟨_, _, rfl, rfl⟩, ⟨_, _, rfl, rfl⟩, rfl, rfl, rfl, rfl, nofun⟩

/-- The texts and operand lists of both kinds: in range and out of range. -/
theorem witness_PseudoCommandExpansions :
    (∀ c ∈ ['a', '~'], c.toNat < 128) ∧ (∃ c ∈ ['a', 'é'], 128 ≤ c.toNat) ∧ (∃ b ∈ [255, 256], 256 ≤ b) := by
  simp

/-- The empty message is held right after reset. -/
theorem witness_Holds_empty : State.reset.Holds [] := by
  refine ⟨rfl, rfl, rfl, rfl, ?_, rfl⟩
  intro k _ h
  exact absurd h (Nat.not_lt_zero k)

/-- A message of 63 bytes is held, so that the next byte completes the block, and FINALIZE would need two blocks. -/
theorem witness_Holds_63 : (absorbing allA 63#6 0#64).Holds (List.replicate 63 0x61#8) := by
  refine ⟨rfl, rfl, by decide, by decide, ?_, ?_⟩
  · decide +kernel
  · rw [show wholeBlocks (List.replicate 63 0x61#8) = [] from by decide +kernel]
    rfl

/-- The message invariant's premise is met right after reset, and a step from there exists. -/
theorem witness_StepKeepsMessageInvariant :
    (State.reset.phase = .absorbing → State.reset.fault = none → ∃ m, State.reset.Holds m) ∧
    ∃ t, step State.reset = .next t ∧ t.phase = .absorbing ∧ t.fault = none :=
  ⟨fun _ _ => ⟨[], witness_Holds_empty⟩, _, rfl, rfl, rfl⟩

theorem witness_WholeMessageYieldsDigest :
    ({ finalized with host := (messageWords [0x61#8]).map HostEvent.command } : State).host =
      (messageWords [0x61#8]).map HostEvent.command ++ [] ∧
    (messageWords ([] : List Byte)).length = 2 := by decide

theorem witness_FaultFreeIsLegalLife :
    (presenting 0x200#10 State.reset).fault = none ∧
    (presenting 0x200#10 State.reset).host = [Instr.finalize].map (fun i => HostEvent.command (encode i)) ∧
    inLifecycle .absorbing [.finalize] = true ∧ inLifecycle .finalized [.finalize] = false := by decide

theorem witness_RunObservesAResponsePerWord :
    (presenting 0x3ff#10 State.reset).host = [0x3ff#10].map HostEvent.command := rfl

theorem witness_RotationMovesBits : 1 ≤ 2 ∧ 25 ≤ 31 ∧ 0 < 32 ∧ 31 < 32 := by decide

/-- The index ranges of ChooseAndMajorityPerBit, SigmaBits, LengthStoreIsBigEndian, ScheduleRecurrence,
FeedForwardAddsModulo32, DigestIsBigEndian, HexRendersNibbles, HexFormAndInjectivity and PseudoCommandExpansions, at their ends; the messages of AbsorbExtendsMessage and FinalizeAnswersMessageDigest are in `witness_Holds_empty` and
`witness_Holds_63`. -/
theorem witness_ranges : (0 < 32 ∧ 31 < 32) ∧ (0 < 8 ∧ 7 < 8) ∧ (0 < 4 ∧ 3 < 4) ∧ (0 < 48 ∧ 47 < 48) ∧
    (0 < 64 ∧ 63 < 64) ∧ (0 < 56 ∧ 55 < 56) ∧ (256 ≤ 256) ∧ (1024 ≤ 1024) := by decide

theorem witness_PaddedMessageBlocks : 51 < paddingZeros 3 ∧ 0 < paddingZeros 56 ∧ paddingZeros 55 = 0 := by decide

/-- One word for each clause of R84, at the ends of the operand's range. -/
theorem witness_DecodeFollowsFieldTests :
    ((0x000#10).toNat / 256 = 0 ∧ (0x000#10).toNat % 256 = 0) ∧ (0x100#10).toNat / 256 = 1 ∧
    (0x1FF#10).toNat / 256 = 1 ∧ ((0x200#10).toNat / 256 = 2 ∧ (0x200#10).toNat % 256 = 0) ∧
    ((0x0FF#10).toNat / 256 = 0 ∧ (0x0FF#10).toNat % 256 ≠ 0) ∧
    ((0x201#10).toNat / 256 = 2 ∧ (0x201#10).toNat % 256 ≠ 0) ∧ (0x300#10).toNat / 256 = 3 := by decide

end Sys2Proof.Tests
end

/-! PROOFS. Every step answers a next state (R10, R207), and runs split at any step. -/

namespace Sys2Proof.Machine

/-- Every command answers a next state; no arm of `exec` faults or refuses. -/
theorem exec_total (i : Instr) (s : State) : ∃ t, exec i s = .next t := by
  cases i with
  | reset => exact ⟨_, exec_reset s⟩
  | absorb b => exact ⟨_, exec_absorb b s⟩
  | finalize => exact ⟨_, exec_finalize s⟩

/-- Every presented word is answered with a next state, the illegal words included. -/
theorem runCommand_total (cmd : CmdWord) (s : State) : ∃ t, runCommand cmd s = .next t := by
  cases hd : Sys2Proof.decode cmd with
  | command i =>
    rw [runCommand_command cmd i s hd]
    exact exec_total i s
  | illegal why => exact ⟨_, runCommand_illegal cmd why s hd⟩

theorem step_total (s : State) : ∃ t, step s = .next t := by
  cases hs : s.host with
  | nil => exact ⟨_, step_nothing_presented s hs⟩
  | cons ev rest =>
    cases ev with
    | hardwareReset i => exact ⟨_, step_hardware_reset s i rest hs⟩
    | command cmd =>
      rw [step_word_presented s cmd rest hs]
      exact runCommand_total cmd (s.take rest)

/-- Settles O7: a step is an idle step, a hardware reset or a presented word, and each answers a next state. -/
theorem stepIsTotal : Obligations.StepIsTotal := step_total

/-- A run of `k` steps that answers `t`, continued from `t`. -/
theorem runSteps_add {k : Nat} {s t : State} (h : runSteps k s = .next t) (j : Nat) :
    runSteps (k + j) s = runSteps j t := by
  induction k generalizing s with
  | zero =>
    rw [runSteps_zero, Host.Outcome.next.injEq] at h
    rw [Nat.zero_add, h]
  | succ k ih =>
    obtain ⟨u, hu⟩ := step_total s
    rw [runSteps_next k s u hu] at h
    rw [Nat.succ_add_eq_add_succ, Nat.add_succ, runSteps_next (k + j) s u hu]
    exact ih h

end Sys2Proof.Machine

/-! PROOFS. The word of a command runs that command (R83, R84), and the checks let it have its effect (R207). -/

namespace Sys2Proof.Machine

theorem decode_encode (i : Instr) : decode (encode i) = .command i := by
  cases i with
  | reset => decide
  | absorb b =>
    revert b
    decide
  | finalize => decide

/-- A step on the word of a command is that command, run on the state with the word taken. -/
theorem step_encode {s : State} {i : Instr} {rest : List HostEvent} (h : s.host = .command (encode i) :: rest) :
    step s = exec i (s.take rest) := by
  rw [step_word_presented s _ rest h, runCommand_command _ i _ (decode_encode i)]

theorem exec_absorb_effect (b : Byte) {s : State} (hf : s.fault = none) (hp : s.phase = .absorbing) :
    exec (.absorb b) s = .next (s.absorbByte b) := by
  rw [exec_absorb, State.whenAbsorbing_effect _ s hf hp]

theorem exec_finalize_effect {s : State} (hf : s.fault = none) (hp : s.phase = .absorbing) :
    exec .finalize s = .next s.finalizeMessage := by
  rw [exec_finalize, State.whenAbsorbing_effect _ s hf hp]

end Sys2Proof.Machine

/-! PROOFS. `Compress()` on the registers computes the function `compress` (R135, R137): the loops that load and expand
the schedule, the rounds, the feed-forward. -/

namespace Sys2Proof.Machine

/-- The first `k` schedule registers hold the words of the buffer. -/
def Scratch.HoldsLoaded (buf : Block) (k : Nat) (sc : Scratch) : Prop :=
  ∀ i : Fin 16, i.val < k → sc.w[i.val] = bufLoadWord buf i

theorem loadScheduleWord_holdsLoaded {buf : Block} {sc : Scratch} (j : Fin 16) (held : sc.HoldsLoaded buf j.val) :
    (loadScheduleWord buf j sc).HoldsLoaded buf (j.val + 1) := by
  intro i hi
  simp only [loadScheduleWord, Vector.getElem_set]
  split
  · next same => rw [Fin.ext same]
  · next other => exact held i (by omega)

/-- The load loop writes the first sixteen schedule words (R129). -/
theorem loadScheduleWords_holdsLoaded (buf : Block) (sc : Scratch) :
    (forAll 16 (loadScheduleWord buf) sc).HoldsLoaded buf 16 :=
  forAll_induct (loadScheduleWord buf) (fun k sc' => sc'.HoldsLoaded buf k) sc
    (fun _ hi => absurd hi (Nat.not_lt_zero _)) fun j _ held => loadScheduleWord_holdsLoaded j held

/-- The schedule registers hold the first `16 + k` schedule words of `block`. -/
def Scratch.HoldsSchedule (block : Block) (k : Nat) (sc : Scratch) : Prop :=
  ∀ i (h : i < 64), i < 16 + k → sc.w[i] = (scheduleNewestFirst block k).getD (15 + k - i) 0

theorem loadScheduleWords_holdsSchedule (buf : Block) (sc : Scratch) :
    (forAll 16 (loadScheduleWord buf) sc).HoldsSchedule buf 0 := by
  intro i h hi
  rw [loadScheduleWords_holdsLoaded buf sc ⟨i, hi⟩ hi]
  have place : 15 - (15 - i) = i := by omega
  simp [scheduleNewestFirst, List.getD_eq_getElem?_getD, show 15 - i < 16 by omega, place]

theorem expandScheduleWord_holdsSchedule {block : Block} {sc : Scratch} (j : Fin 48)
    (held : sc.HoldsSchedule block j.val) : (expandScheduleWord j sc).HoldsSchedule block (j.val + 1) := by
  have hj := j.isLt
  intro i h hi
  simp only [expandScheduleWord, Vector.getElem_set, scheduleNewestFirst]
  split
  · next newest =>
    subst newest
    rw [held j.val (by omega) (by omega), held (j.val + 9) (by omega) (by omega),
      held (j.val + 1) (by omega) (by omega), held (j.val + 14) (by omega) (by omega)]
    rw [show 15 + (j.val + 1) - (j.val + 16) = 0 by omega, show 15 + j.val - j.val = 15 by omega,
      show 15 + j.val - (j.val + 9) = 6 by omega, show 15 + j.val - (j.val + 1) = 14 by omega,
      show 15 + j.val - (j.val + 14) = 1 by omega, List.getD_cons_zero]
  · next older =>
    rw [held i h (by omega), show 15 + (j.val + 1) - i = (15 + j.val - i) + 1 by omega, List.getD_cons_succ]

theorem length_scheduleNewestFirst (block : Block) (k : Nat) : (scheduleNewestFirst block k).length = 16 + k := by
  induction k with
  | zero => simp [scheduleNewestFirst]
  | succ k ih => simp [scheduleNewestFirst, ih, Nat.add_assoc]

@[simp] theorem length_schedule (block : Block) : (schedule block).length = 64 := by
  simp [schedule, length_scheduleNewestFirst]

/-- The schedule registers hold the schedule of the block (R129, R130). -/
theorem loadSchedule_getElem (buf : Block) (sc : Scratch) (i : Nat) (h : i < 64) :
    (loadSchedule buf sc).w[i] = (schedule buf)[i]'((length_schedule buf).symm ▸ h) := by
  have held : (loadSchedule buf sc).HoldsSchedule buf 48 :=
    forAll_induct expandScheduleWord (fun k sc' => sc'.HoldsSchedule buf k) _
      (loadScheduleWords_holdsSchedule buf sc) fun j _ held => expandScheduleWord_holdsSchedule j held
  rw [held i h h, List.getD_eq_getElem _ _ (by rw [length_scheduleNewestFirst]; omega)]
  simp [schedule, length_scheduleNewestFirst]

/-- The eight working registers. -/
def Scratch.working (sc : Scratch) : Working := ⟨sc.a, sc.b, sc.c, sc.d, sc.e, sc.f, sc.g, sc.h⟩

theorem working_loadWorking (hash : HashWords) (sc : Scratch) : (loadWorking hash sc).working = workingOf hash := rfl

theorem working_compressRound (t : Fin 64) (sc : Scratch) :
    (compressRound t sc).working = roundOf sc.working (kRom t) sc.w[t.val] := rfl

theorem compressRound_w (t : Fin 64) (sc : Scratch) : (compressRound t sc).w = sc.w := rfl

theorem feedForward_eq_accumulate (hash : HashWords) (sc : Scratch) :
    feedForward hash sc = accumulate hash sc.working := rfl

/-- One more pair of round constant and schedule word is one more round. -/
theorem roundsOf_take_succ (v : Working) (kws : List (Word × Word)) (t : Nat) (h : t < kws.length) :
    roundsOf v (kws.take (t + 1)) = roundOf (roundsOf v (kws.take t)) kws[t].1 kws[t].2 := by
  simp only [roundsOf, List.take_succ_eq_append_getElem h, List.foldl_append, List.foldl_cons, List.foldl_nil]

/-- The pairs a compression of `block` runs its rounds over. -/
theorem length_roundPairs (block : Block) : (kTable.zip (schedule block)).length = 64 := by
  rw [List.length_zip, length_schedule]
  decide

/-- The registers after the first `k` rounds of a compression of `block` into `hash`. -/
structure Scratch.RanRounds (hash : HashWords) (block : Block) (k : Nat) (sc : Scratch) : Prop where
  schedule_word : ∀ t : Fin 64, sc.w[t.val] = (schedule block)[t.val]'((length_schedule block).symm ▸ t.isLt)
  working_eq : sc.working = roundsOf (workingOf hash) ((kTable.zip (schedule block)).take k)

theorem loadWorking_ranRounds (hash : HashWords) (block : Block) (sc : Scratch) :
    (loadWorking hash (loadSchedule block sc)).RanRounds hash block 0 where
  schedule_word := fun t => loadSchedule_getElem block sc t.val t.isLt
  working_eq := working_loadWorking hash _

theorem compressRound_ranRounds {hash : HashWords} {block : Block} {sc : Scratch} (t : Fin 64)
    (ran : sc.RanRounds hash block t.val) : (compressRound t sc).RanRounds hash block (t.val + 1) where
  schedule_word := by
    rw [compressRound_w]
    exact ran.schedule_word
  working_eq := by
    have inPairs : t.val < (kTable.zip (schedule block)).length := (length_roundPairs block).symm ▸ t.isLt
    rw [working_compressRound, roundsOf_take_succ _ _ _ inPairs, ran.working_eq, ran.schedule_word, List.getElem_zip]
    rfl

/-- The working registers after all the rounds over a loaded schedule (R131 to R133). -/
theorem working_runRounds (hash : HashWords) (block : Block) (sc : Scratch) :
    (runRounds hash (loadSchedule block sc)).working =
      roundsOf (workingOf hash) (kTable.zip (schedule block)) := by
  have ran : (runRounds hash (loadSchedule block sc)).RanRounds hash block 64 :=
    forAll_induct compressRound (fun k sc' => sc'.RanRounds hash block k) _ (loadWorking_ranRounds hash block sc)
      fun t _ ran => compressRound_ranRounds t ran
  rw [ran.working_eq, List.take_of_length_le (length_roundPairs block).le]

/-- `Compress()` on the registers computes the compression function, whatever the scratch registers held (R136). -/
theorem compressRun_hash (sc : Scratch) (hash : HashWords) (block : Block) :
    (compressRun sc hash block).2 = compress hash block := by
  unfold compressRun compress
  simp only [feedForward_eq_accumulate, working_runRounds]

end Sys2Proof.Machine

/-! PROOFS. Lists of bytes, their blocks, and the padded message (R52, R167). -/

namespace Sys2Proof.Machine

theorem blockAt_getElem (bytes : List Byte) (q k : Nat) (h : k < 64) :
    (blockAt bytes q)[k] = bytes.getD (64 * q + k) 0x00#8 := by
  simp [blockAt]

/-- A block that lies inside `xs` does not see what follows `xs`. -/
theorem blockAt_append_left (xs ys : List Byte) (q : Nat) (h : q < xs.length / 64) :
    blockAt (xs ++ ys) q = blockAt xs q := by
  apply Vector.ext
  intro k hk
  rw [blockAt_getElem, blockAt_getElem, List.getD_append _ _ _ _ (by omega)]

/-- Appended bytes that complete `d` more blocks add exactly those blocks. -/
theorem wholeBlocks_append (xs ys : List Byte) (d : Nat) (h : (xs ++ ys).length / 64 = xs.length / 64 + d) :
    wholeBlocks (xs ++ ys) =
      wholeBlocks xs ++ (List.range d).map fun j => blockAt (xs ++ ys) (xs.length / 64 + j) := by
  rw [wholeBlocks, h, List.range_add, List.map_append, List.map_map, wholeBlocks]
  congr 1
  refine List.map_congr_left fun q hq => ?_
  exact blockAt_append_left xs ys q (List.mem_range.mp hq)

theorem foldBlocks_append (xs ys : List Block) : foldBlocks (xs ++ ys) = ys.foldl compress (foldBlocks xs) :=
  List.foldl_append

/-- The padding follows the message (R160). -/
theorem paddedMessage_eq_append (m : List Byte) : ∃ padding, paddedMessage m = m ++ padding := by
  simp only [paddedMessage, List.append_assoc]
  exact ⟨_, rfl⟩

theorem length_paddedMessage (m : List Byte) :
    (paddedMessage m).length = m.length + 1 + paddingZeros m.length + 8 := by
  simp [paddedMessage, lengthField]
  omega

/-- The message and the padding byte stand first (R162). -/
theorem paddedMessage_getD_tail (m : List Byte) (i : Nat) (h : i ≤ m.length) :
    (paddedMessage m).getD i 0x00#8 = (m ++ [0x80#8]).getD i 0x00#8 := by
  have inTail : i < (m ++ [0x80#8]).length := by
    rw [List.length_append]
    exact Nat.lt_succ_of_le h
  rw [paddedMessage, List.append_assoc, List.getD_append _ _ _ _ inTail]

/-- Zero bytes fill up to the length field (R163, R164). -/
theorem paddedMessage_getD_zero (m : List Byte) (i : Nat) (lo : m.length < i)
    (hi : i < m.length + 1 + paddingZeros m.length) : (paddedMessage m).getD i 0x00#8 = 0x00#8 := by
  rw [paddedMessage, List.getD_append _ _ _ _ (by simp; omega), List.getD_append_right _ _ _ _ (by simp; omega)]
  rw [List.getD_replicate]
  simp only [List.length_append, List.length_singleton]
  omega

/-- The length field is last (R166). -/
theorem paddedMessage_getD_length (m : List Byte) (j : Nat) (h : j < 8) :
    (paddedMessage m).getD (m.length + 1 + paddingZeros m.length + j) 0x00#8 =
      lengthByte (BitVec.ofNat 64 (8 * m.length)) j := by
  have before : (m ++ [0x80#8] ++ List.replicate (paddingZeros m.length) 0x00#8).length =
      m.length + 1 + paddingZeros m.length := by simp; omega
  rw [paddedMessage, List.getD_append_right _ _ _ _ (by omega), before, Nat.add_sub_cancel_left]
  simp [lengthField, h]

/-- A tail of fewer than 56 bytes is padded within its own block (R163). -/
theorem length_add_paddingZeros_short {len : Nat} (h : len % 64 < 56) :
    len + 1 + paddingZeros len = 64 * (len / 64) + 56 := by
  simp only [paddingZeros]
  omega

/-- A longer tail is padded into a second block (R164). -/
theorem length_add_paddingZeros_long {len : Nat} (h : 56 ≤ len % 64) :
    len + 1 + paddingZeros len = 64 * (len / 64) + 120 := by
  simp only [paddingZeros]
  omega

/-- The last block of a message with a short tail: one compression more than the message's own whole blocks. -/
theorem foldBlocks_padded_short (m : List Byte) (h : m.length % 64 < 56) :
    foldBlocks (wholeBlocks (paddedMessage m)) =
      compress (foldBlocks (wholeBlocks m)) (blockAt (paddedMessage m) (m.length / 64)) := by
  obtain ⟨padding, appended⟩ := paddedMessage_eq_append m
  have count : (paddedMessage m).length / 64 = m.length / 64 + 1 := by
    rw [length_paddedMessage, length_add_paddingZeros_short h]
    omega
  rw [appended] at count ⊢
  rw [wholeBlocks_append _ _ 1 count, foldBlocks_append]
  rfl

/-- The last two blocks of a message with a long tail. -/
theorem foldBlocks_padded_long (m : List Byte) (h : 56 ≤ m.length % 64) :
    foldBlocks (wholeBlocks (paddedMessage m)) =
      compress (compress (foldBlocks (wholeBlocks m)) (blockAt (paddedMessage m) (m.length / 64)))
        (blockAt (paddedMessage m) (m.length / 64 + 1)) := by
  obtain ⟨padding, appended⟩ := paddedMessage_eq_append m
  have count : (paddedMessage m).length / 64 = m.length / 64 + 2 := by
    rw [length_paddedMessage, length_add_paddingZeros_long h]
    omega
  rw [appended] at count ⊢
  rw [wholeBlocks_append _ _ 2 count, foldBlocks_append]
  rfl

end Sys2Proof.Machine

/-! PROOFS. What ABSORB and FINALIZE leave in each register they fix. -/

namespace Sys2Proof.Machine

/-- After `Compress()` the hash words are the compression function of those before it and the buffer (R137). -/
theorem State.compress_hash_eq (s : State) : s.compress.hash = Machine.compress s.hash s.buf := by
  rw [State.compress_hash, compressRun_hash]

@[simp] theorem State.absorbByte_host (b : Byte) (s : State) : (s.absorbByte b).host = s.host := by
  obtain ⟨-, e⟩ | ⟨-, e⟩ := State.absorbByte_cases b s <;> simp [e, State.completeBlock]

@[simp] theorem State.absorbByte_response (b : Byte) (s : State) : (s.absorbByte b).response = some .ok := by
  obtain ⟨-, e⟩ | ⟨-, e⟩ := State.absorbByte_cases b s <;> simp [e]

@[simp] theorem State.absorbByte_phase (b : Byte) (s : State) : (s.absorbByte b).phase = s.phase := by
  obtain ⟨-, e⟩ | ⟨-, e⟩ := State.absorbByte_cases b s <;> simp [e, State.completeBlock]

@[simp] theorem State.absorbByte_fault (b : Byte) (s : State) : (s.absorbByte b).fault = s.fault := by
  obtain ⟨-, e⟩ | ⟨-, e⟩ := State.absorbByte_cases b s <;> simp [e, State.completeBlock]

@[simp] theorem State.absorbByte_buf (b : Byte) (s : State) : (s.absorbByte b).buf = bufStore s.buf s.fill b := by
  obtain ⟨-, e⟩ | ⟨-, e⟩ := State.absorbByte_cases b s <;> simp [e, State.completeBlock]

/-- The cursor goes up by one, and from 63 back to 0 (R100). -/
@[simp] theorem State.absorbByte_fill (b : Byte) (s : State) : (s.absorbByte b).fill = s.fill + 1#6 := by
  obtain ⟨full, e⟩ | ⟨-, e⟩ := State.absorbByte_cases b s
  · simp [e, State.completeBlock, full]
  · simp [e]

theorem State.absorbByte_bits (b : Byte) (s : State) :
    (s.absorbByte b).bits = if s.fill = 63#6 then s.bits + 512#64 else s.bits := by
  obtain ⟨full, e⟩ | ⟨room, e⟩ := State.absorbByte_cases b s
  · simp [e, State.completeBlock, full]
  · simp [e, room]

theorem State.absorbByte_hash (b : Byte) (s : State) :
    (s.absorbByte b).hash =
      if s.fill = 63#6 then Machine.compress s.hash (bufStore s.buf s.fill b) else s.hash := by
  obtain ⟨full, e⟩ | ⟨room, e⟩ := State.absorbByte_cases b s
  · simp only [e, State.completeBlock, full, if_true, State.respond_hash, State.releaseScratch_hash,
      State.compress_hash_eq, State.storeByte_hash, State.storeByte_buf]
  · simp [e, room]

theorem State.padTail_short {n : Nat} (h : n < 56) (s : State) : s.padTail n = s.zeroFill (n + 1) 56 := by
  rw [State.padTail, if_pos h]

theorem State.padTail_long {n : Nat} (h : 56 ≤ n) (s : State) :
    s.padTail n = ((s.zeroFill (n + 1) 64).compress).zeroFill 0 56 := by
  rw [State.padTail, if_neg (Nat.not_lt.mpr h)]

@[simp] theorem State.padTail_host (n : Nat) (s : State) : (s.padTail n).host = s.host := by
  unfold State.padTail
  split <;> simp

@[simp] theorem State.padTail_fault (n : Nat) (s : State) : (s.padTail n).fault = s.fault := by
  unfold State.padTail
  split <;> simp

@[simp] theorem State.padAndCompress_host (s : State) : s.padAndCompress.host = s.host := by
  simp [State.padAndCompress]

@[simp] theorem State.padAndCompress_fault (s : State) : s.padAndCompress.fault = s.fault := by
  simp [State.padAndCompress]

/-- What FINALIZE does with the registers its last compression left in `done` (R36, R168, R169). -/
def State.deliverDigest (done : State) : State :=
  { done.consume.releaseScratch with phase := .finalized }.respond (.digest (serialize done.hash))

/-- FINALIZE's effect in its two parts. Its fields are read through this equation, with the compressed state a variable
of `deliverDigest`, so that no check unfolds the compression. -/
theorem State.finalizeMessage_eq (s : State) : s.finalizeMessage = s.padAndCompress.deliverDigest := rfl

@[simp] theorem State.deliverDigest_host (s : State) : s.deliverDigest.host = s.host := rfl
@[simp] theorem State.deliverDigest_fault (s : State) : s.deliverDigest.fault = s.fault := rfl
@[simp] theorem State.deliverDigest_phase (s : State) : s.deliverDigest.phase = .finalized := rfl
@[simp] theorem State.deliverDigest_hash (s : State) : s.deliverDigest.hash = s.hash := rfl
@[simp] theorem State.deliverDigest_response (s : State) :
    s.deliverDigest.response = some (.digest (serialize s.hash)) := rfl

@[simp] theorem State.finalizeMessage_host (s : State) : s.finalizeMessage.host = s.host := by
  rw [State.finalizeMessage_eq, State.deliverDigest_host, State.padAndCompress_host]

@[simp] theorem State.finalizeMessage_fault (s : State) : s.finalizeMessage.fault = s.fault := by
  rw [State.finalizeMessage_eq, State.deliverDigest_fault, State.padAndCompress_fault]

@[simp] theorem State.finalizeMessage_phase (s : State) : s.finalizeMessage.phase = .finalized := by
  rw [State.finalizeMessage_eq, State.deliverDigest_phase]

@[simp] theorem State.finalizeMessage_hash (s : State) : s.finalizeMessage.hash = s.padAndCompress.hash := by
  rw [State.finalizeMessage_eq, State.deliverDigest_hash]

@[simp] theorem State.finalizeMessage_response (s : State) :
    s.finalizeMessage.response = some (.digest (serialize s.padAndCompress.hash)) := by
  rw [State.finalizeMessage_eq, State.deliverDigest_response]

theorem State.finalizeMessage_digestValid {s : State} (h : s.fault = none) :
    s.finalizeMessage.digestValid = true := by
  simp [State.digestValid, h]

/-- The digest output after FINALIZE is the digest it answered (R180). -/
theorem State.finalizeMessage_digestOutput {s : State} (h : s.fault = none) :
    s.finalizeMessage.digestOutput = serialize s.padAndCompress.hash := by
  rw [State.digestOutput, if_pos (State.finalizeMessage_digestValid h), State.finalizeMessage_hash]

/-- FINALIZE of fewer than 56 buffered bytes compresses one block (R163). -/
theorem State.padAndCompress_hash_short (s : State) (h : s.fill.toNat < 56) :
    s.padAndCompress.hash =
      Machine.compress s.hash (bufStoreLength
        (bufZeroFill (bufStore s.buf s.fill 0x80#8) (s.fill.toNat + 1) 56) (totalBits s.bits s.fill)) := by
  rw [State.padAndCompress, State.padTail_short h, State.compress_hash_eq, State.storeLength_hash,
    State.storeLength_buf, State.zeroFill_hash, State.zeroFill_buf, State.storeByte_hash, State.storeByte_buf]

/-- FINALIZE of 56 or more buffered bytes compresses two blocks (R164). -/
theorem State.padAndCompress_hash_long (s : State) (h : 56 ≤ s.fill.toNat) :
    s.padAndCompress.hash =
      Machine.compress
        (Machine.compress s.hash (bufZeroFill (bufStore s.buf s.fill 0x80#8) (s.fill.toNat + 1) 64))
        (bufStoreLength
          (bufZeroFill (bufZeroFill (bufStore s.buf s.fill 0x80#8) (s.fill.toNat + 1) 64) 0 56)
          (totalBits s.bits s.fill)) := by
  rw [State.padAndCompress, State.padTail_long h, State.compress_hash_eq, State.storeLength_hash,
    State.storeLength_buf, State.zeroFill_hash, State.zeroFill_buf, State.compress_hash_eq, State.compress_buf,
    State.zeroFill_hash, State.zeroFill_buf, State.storeByte_hash, State.storeByte_buf]

end Sys2Proof.Machine

/-! PROOFS. The held message (R26 I4): RESET empties it, ABSORB extends it. -/

namespace Sys2Proof.Machine

theorem State.loadInitial_holds (s : State) : s.loadInitial.Holds [] where
  absorbing := rfl
  no_fault := rfl
  fill_tail := rfl
  bits_blocks := rfl
  buf_tail := fun k _ hk => absurd hk (Nat.not_lt_zero k)
  hash_blocks := rfl

/-- The message invariant reads neither the response port, nor the host's list, nor the draw counter. -/
theorem State.Holds.of_toEngine_eq {s t : State} {m : List Byte} (held : s.Holds m) (h : t.toEngine = s.toEngine) :
    t.Holds m := by
  obtain ⟨engine, response, host, draws⟩ := t
  subst h
  obtain ⟨absorbing, noFault, fillTail, bitsBlocks, bufTail, hashBlocks⟩ := held
  exact ⟨absorbing, noFault, fillTail, bitsBlocks, bufTail, hashBlocks⟩

/-- The buffer after a byte is stored at the cursor: the tail of the message with that byte at its end. -/
theorem State.Holds.bufStore_getElem {s : State} {m : List Byte} (held : s.Holds m) (b : Byte) (k : Nat) (h : k < 64)
    (hk : k ≤ m.length % 64) :
    (bufStore s.buf s.fill b)[k] = (m ++ [b]).getD (64 * (m.length / 64) + k) 0x00#8 := by
  rw [Machine.bufStore_getElem, held.fill_tail]
  split
  · next last =>
    rw [← last, Nat.div_add_mod, List.getD_append_right _ _ _ _ (Nat.le_refl _), Nat.sub_self, List.getD_cons_zero]
  · next before =>
    rw [held.buf_tail k h (by omega), List.getD_append _ _ _ _ (by omega)]

theorem State.Holds.fill_eq_63_iff {s : State} {m : List Byte} (held : s.Holds m) :
    s.fill = 63#6 ↔ m.length % 64 = 63 := by
  rw [← held.fill_tail, ← BitVec.toNat_inj]
  rfl

/-- ABSORB of a byte extends the held message by that byte (R100). -/
theorem State.Holds.absorbByte {s : State} {m : List Byte} (held : s.Holds m) (b : Byte) :
    (s.absorbByte b).Holds (m ++ [b]) := by
  have len : (m ++ [b]).length = m.length + 1 := List.length_append
  refine ⟨?_, ?_, ?_, ?_, ?_, ?_⟩
  · rw [State.absorbByte_phase, held.absorbing]
  · rw [State.absorbByte_fault, held.no_fault]
  · rw [State.absorbByte_fill, len, BitVec.toNat_add, held.fill_tail, BitVec.toNat_ofNat]
    omega
  · simp only [State.absorbByte_bits, held.fill_eq_63_iff, held.bits_blocks, len]
    split
    · rw [show (m.length + 1) / 64 = m.length / 64 + 1 by omega, Nat.mul_add, BitVec.ofNat_add]
    · rw [show (m.length + 1) / 64 = m.length / 64 by omega]
  · intro k h hk
    rw [len] at hk ⊢
    have sameBlock : (m.length + 1) / 64 = m.length / 64 := by omega
    rw [State.absorbByte_buf, held.bufStore_getElem b k h (by omega), sameBlock]
  · simp only [State.absorbByte_hash, held.fill_eq_63_iff, held.hash_blocks]
    split
    · have block : bufStore s.buf s.fill b = blockAt (m ++ [b]) (m.length / 64) := by
        apply Vector.ext
        intro k h
        rw [held.bufStore_getElem b k h (by omega), blockAt_getElem]
      rw [wholeBlocks_append m [b] 1 (by omega), foldBlocks_append, block]
      rfl
    · rw [wholeBlocks_append m [b] 0 (by omega), foldBlocks_append]
      rfl

end Sys2Proof.Machine

/-! PROOFS. FINALIZE of a held message (R160 to R169). -/

namespace Sys2Proof.Machine

/-- `totalBits` is the length of the held message in bits, modulo 2^64 (R165). -/
theorem State.Holds.totalBits_eq {s : State} {m : List Byte} (held : s.Holds m) :
    totalBits s.bits s.fill = BitVec.ofNat 64 (8 * m.length) := by
  apply BitVec.eq_of_toNat_eq
  simp only [totalBits, held.bits_blocks, BitVec.toNat_add, BitVec.toNat_mul, BitVec.toNat_setWidth,
    BitVec.toNat_ofNat, held.fill_tail]
  omega

/-- The held tail, the padding byte, and zeros up to `hi`: the padded message, as far as its zeros reach. -/
theorem State.Holds.bufZeroFill_getElem {s : State} {m : List Byte} (held : s.Holds m) {hi : Nat}
    (zeros : 64 * (m.length / 64) + hi ≤ m.length + 1 + paddingZeros m.length) (k : Nat) (h : k < 64) (hk : k < hi) :
    (bufZeroFill (bufStore s.buf s.fill 0x80#8) (s.fill.toNat + 1) hi)[k] =
      (paddedMessage m).getD (64 * (m.length / 64) + k) 0x00#8 := by
  rw [Machine.bufZeroFill_getElem, held.fill_tail]
  split
  · next zero => rw [paddedMessage_getD_zero m _ (by omega) (by omega)]
  · next tail => rw [held.bufStore_getElem _ k h (by omega), paddedMessage_getD_tail m _ (by omega)]

/-- The length field completes the block it ends (R166). -/
theorem State.Holds.bufStoreLength_eq {s : State} {m : List Byte} (held : s.Holds m) {buf : Block} {q : Nat}
    (last : m.length + 1 + paddingZeros m.length = 64 * q + 56)
    (before : ∀ k (h : k < 56), buf[k] = (paddedMessage m).getD (64 * q + k) 0x00#8) :
    bufStoreLength buf (totalBits s.bits s.fill) = blockAt (paddedMessage m) q := by
  apply Vector.ext
  intro k h
  rw [bufStoreLength_getElem, blockAt_getElem]
  split
  · next field =>
    obtain ⟨j, rfl⟩ := Nat.exists_eq_add_of_le field
    rw [held.totalBits_eq, ← Nat.add_assoc, ← last, paddedMessage_getD_length m j (by omega), Nat.add_sub_cancel_left]
  · exact before k (by omega)

/-- The hash words after FINALIZE are the fold over the blocks of the padded message (R167). -/
theorem State.Holds.padAndCompress_hash {s : State} {m : List Byte} (held : s.Holds m) :
    s.padAndCompress.hash = foldBlocks (wholeBlocks (paddedMessage m)) := by
  by_cases short : m.length % 64 < 56
  · have zeros := length_add_paddingZeros_short short
    rw [State.padAndCompress_hash_short s (by rw [held.fill_tail]; exact short), foldBlocks_padded_short m short,
      held.hash_blocks,
      held.bufStoreLength_eq zeros fun k h => held.bufZeroFill_getElem zeros.ge k (by omega) h]
  · have long : 56 ≤ m.length % 64 := Nat.le_of_not_lt short
    have zeros := length_add_paddingZeros_long long
    have first : bufZeroFill (bufStore s.buf s.fill 0x80#8) (s.fill.toNat + 1) 64 =
        blockAt (paddedMessage m) (m.length / 64) := by
      apply Vector.ext
      intro k h
      rw [held.bufZeroFill_getElem (by omega) k h h, blockAt_getElem]
    have second (k : Nat) (h : k < 56) : (bufZeroFill (blockAt (paddedMessage m) (m.length / 64)) 0 56)[k] =
        (paddedMessage m).getD (64 * (m.length / 64 + 1) + k) 0x00#8 := by
      rw [Machine.bufZeroFill_getElem, if_pos ⟨Nat.zero_le k, h⟩,
        paddedMessage_getD_zero m _ (by omega) (by omega)]
    rw [State.padAndCompress_hash_long s (by rw [held.fill_tail]; exact long), foldBlocks_padded_long m long,
      held.hash_blocks, first, held.bufStoreLength_eq (by omega) second]

theorem State.Holds.finalizeMessage_response {s : State} {m : List Byte} (held : s.Holds m) :
    s.finalizeMessage.response = some (.digest (messageDigest m)) := by
  rw [State.finalizeMessage_response, held.padAndCompress_hash, messageDigest]

/-- Settles O50: FINALIZE compresses the last one or two blocks of the padded message into the fold over the others. -/
theorem finalizeAnswersMessageDigest : Obligations.FinalizeAnswersMessageDigest := by
  intro s m held
  refine ⟨s.finalizeMessage, exec_finalize_effect held.no_fault held.absorbing, held.finalizeMessage_response,
    State.finalizeMessage_digestValid held.no_fault, ?_⟩
  rw [State.finalizeMessage_digestOutput held.no_fault, held.padAndCompress_hash, messageDigest]

end Sys2Proof.Machine

/-! PROOFS. RESET, the bytes of a message, FINALIZE (R192, R233). -/

namespace Sys2Proof.Machine

theorem State.Holds.take {s : State} {m : List Byte} (held : s.Holds m) (rest : List HostEvent) :
    (s.take rest).Holds m :=
  held.of_toEngine_eq rfl

/-- The word of RESET, in any state, leaves an engine that holds the empty message. -/
theorem step_reset_holds {s : State} {rest : List HostEvent} (h : s.host = .command (encode .reset) :: rest) :
    ∃ t, step s = .next t ∧ t.Holds [] ∧ t.host = rest :=
  ⟨_, (step_encode h).trans (exec_reset _), (s.take rest).loadInitial_holds.of_toEngine_eq rfl, rfl⟩

/-- ABSORB words extend the held message by their bytes, in order (R101). -/
theorem runSteps_absorb_holds {bs : List Byte} {s : State} {m : List Byte} {rest : List HostEvent} (held : s.Holds m)
    (h : s.host = bs.map (fun b => HostEvent.command (encode (.absorb b))) ++ rest) :
    ∃ t, runSteps bs.length s = .next t ∧ t.Holds (m ++ bs) ∧ t.host = rest := by
  induction bs generalizing s m with
  | nil => exact ⟨s, runSteps_zero s, by rwa [List.append_nil], h⟩
  | cons b bs ih =>
    have heldTaken := held.take (bs.map (fun b => HostEvent.command (encode (.absorb b))) ++ rest)
    have first := (step_encode h).trans (exec_absorb_effect b heldTaken.no_fault heldTaken.absorbing)
    obtain ⟨t, run, heldAll, host⟩ := ih (heldTaken.absorbByte b) (by rw [State.absorbByte_host, State.take_host])
    rw [List.append_assoc] at heldAll
    exact ⟨t, (runSteps_next _ _ _ first).trans run, heldAll, host⟩

/-- The word of FINALIZE answers the digest of the held message. -/
theorem State.Holds.step_finalize {s : State} {m : List Byte} {rest : List HostEvent} (held : s.Holds m)
    (h : s.host = .command (encode .finalize) :: rest) :
    ∃ t, step s = .next t ∧ t.response = some (.digest (messageDigest m)) ∧ t.phase = .finalized ∧
      t.fault = none ∧ t.host = rest := by
  have heldTaken := held.take rest
  refine ⟨_, (step_encode h).trans (exec_finalize_effect heldTaken.no_fault heldTaken.absorbing),
    heldTaken.finalizeMessage_response, State.finalizeMessage_phase _, ?_, ?_⟩
  · rw [State.finalizeMessage_fault, heldTaken.no_fault]
  · rw [State.finalizeMessage_host, State.take_host]

theorem map_command_messageWords (m : List Byte) (rest : List HostEvent) :
    (messageWords m).map HostEvent.command ++ rest =
      .command (encode .reset) :: (m.map (fun b => HostEvent.command (encode (.absorb b))) ++
        .command (encode .finalize) :: rest) := by
  simp [messageWords]

/-- Settles O51: RESET makes the engine hold the empty message, the ABSORB words make it hold `m`, and FINALIZE answers
the digest of what it holds. -/
theorem wholeMessageYieldsDigest : Obligations.WholeMessageYieldsDigest := by
  intro s m rest host
  rw [map_command_messageWords] at host
  obtain ⟨s₁, reset, held₁, host₁⟩ := step_reset_holds host
  obtain ⟨s₂, absorbed, held₂, host₂⟩ := runSteps_absorb_holds held₁ host₁
  obtain ⟨t, finalize, answer⟩ := held₂.step_finalize host₂
  refine ⟨t, ?_, answer⟩
  calc runSteps (m.length + 2) s = runSteps (m.length + 1) s₁ := runSteps_next _ _ _ reset
    _ = runSteps 1 s₂ := runSteps_add absorbed 1
    _ = runSteps 0 t := runSteps_next _ _ _ finalize
    _ = .next t := runSteps_zero t

end Sys2Proof.Machine

/-! PROOFS. Everything one step can do, with its guard (R27, R207, R213). -/

namespace Sys2Proof.Machine

theorem opField_append_dataField (w : CmdWord) : opField w ++ dataField w = w :=
  (BitVec.extractLsb'_append_extractLsb'_eq_extractLsb' rfl).trans BitVec.extractLsb'_eq_self

/-- A word that decodes to a command is that command's word (R83). -/
theorem eq_encode_of_decode {w : CmdWord} {i : Instr} (h : decode w = .command i) : w = encode i := by
  have fields := opField_append_dataField w
  unfold decode at h
  split at h
  · next op =>
    split at h <;> cases h
    next data => rw [← fields, op, data, encode]
  · split at h
    · next op =>
      cases h
      rw [encode, ← op, fields]
    · split at h
      · next op =>
        split at h <;> cases h
        next data => rw [← fields, op, data, encode]
      · cases h

/-- The next state of each kind of step, with what the state before it must be: nothing presented, the hardware reset,
the accepted commands, and a word that is refused or raises a fault. -/
inductive State.Steps (s : State) : State → Prop where
  | idle (host : s.host = []) : s.Steps s.idle
  | hardwareReset {i rest} (host : s.host = .hardwareReset i :: rest) : s.Steps ((s.take rest).hardwareReset i)
  | reset {rest} (host : s.host = .command (encode .reset) :: rest) :
      s.Steps ((s.take rest).loadInitial.respond .ok)
  | absorb {b rest} (host : s.host = .command (encode (.absorb b)) :: rest) (fault : s.fault = none)
      (phase : s.phase = .absorbing) : s.Steps ((s.take rest).absorbByte b)
  | finalize {rest} (host : s.host = .command (encode .finalize) :: rest) (fault : s.fault = none)
      (phase : s.phase = .absorbing) : s.Steps (s.take rest).finalizeMessage
  | refuse {w c rest} (host : s.host = .command w :: rest) (fault : s.fault = some c) :
      s.Steps ((s.take rest).refuse c)
  | raise {w c rest} (host : s.host = .command w :: rest) (fault : s.fault = none)
      (cause : c = .invalidState → s.phase = .finalized) : s.Steps ((s.take rest).raise c)

/-- The checks before ABSORB and FINALIZE give a step, when the effect of the accepted command is one (R207). -/
theorem State.Steps.of_whenAbsorbing {s : State} {w : CmdWord} {rest : List HostEvent} {effect : State → State}
    (host : s.host = .command w :: rest)
    (accepted : s.fault = none → s.phase = .absorbing → s.Steps (effect (s.take rest))) :
    s.Steps ((s.take rest).whenAbsorbing effect) := by
  obtain ⟨c, fault, e⟩ | ⟨fault, phase, e⟩ | ⟨fault, phase, e⟩ := State.whenAbsorbing_cases effect (s.take rest)
  · rw [e]
    exact .refuse host fault
  · rw [e]
    exact .raise host fault fun _ => phase
  · rw [e]
    exact accepted fault phase

/-- An illegal word is refused, or raises ILLEGAL_COMMAND (R201, R205). -/
theorem State.Steps.of_illegalWord {s : State} {w : CmdWord} {rest : List HostEvent}
    (host : s.host = .command w :: rest) : s.Steps (s.take rest).illegalWord := by
  obtain ⟨c, fault, e⟩ | ⟨fault, e⟩ := State.illegalWord_cases (s.take rest)
  · rw [e]
    exact .refuse host fault
  · rw [e]
    exact .raise host fault nofun

/-- The executed command, by its kind. -/
theorem State.Steps.of_exec {s t : State} {i : Instr} {rest : List HostEvent}
    (host : s.host = .command (encode i) :: rest) (h : exec i (s.take rest) = .next t) : s.Steps t := by
  cases i with
  | reset =>
    rw [exec_reset, Host.Outcome.next.injEq] at h
    exact h ▸ .reset host
  | absorb b =>
    rw [exec_absorb, Host.Outcome.next.injEq] at h
    exact h ▸ .of_whenAbsorbing host (.absorb host)
  | finalize =>
    rw [exec_finalize, Host.Outcome.next.injEq] at h
    exact h ▸ .of_whenAbsorbing host (.finalize host)

/-- There is no other step. -/
theorem State.Steps.of_step {s t : State} (h : step s = .next t) : s.Steps t := by
  obtain ⟨host, rfl⟩ | ⟨i, rest, host, rfl⟩ | ⟨w, rest, i, host, decoded, run⟩ | ⟨w, rest, _, host, _, rfl⟩ :=
    step_cases s t h
  · exact .idle host
  · exact .hardwareReset host
  · rw [eq_encode_of_decode decoded] at host
    exact .of_exec host run
  · exact .of_illegalWord host

end Sys2Proof.Machine

/-! PROOFS. What ABSORB and FINALIZE leave in the remaining registers (R31, R35, R36). -/

namespace Sys2Proof.Machine

@[simp] theorem State.absorbByte_draws (b : Byte) (s : State) : (s.absorbByte b).draws = s.draws := by
  obtain ⟨-, e⟩ | ⟨-, e⟩ := State.absorbByte_cases b s <;> simp [e, State.completeBlock]

theorem State.absorbByte_scratch_of_room (b : Byte) {s : State} (room : s.fill ≠ 63#6) :
    (s.absorbByte b).scratch = s.scratch := by
  obtain ⟨full, -⟩ | ⟨-, e⟩ := State.absorbByte_cases b s
  · exact absurd full room
  · simp [e]

theorem State.absorbByte_round_le (b : Byte) {s : State} (legal : s.scratch.t.toNat ≤ 64) :
    (s.absorbByte b).scratch.t.toNat ≤ 64 := by
  obtain ⟨-, e⟩ | ⟨room, -⟩ := State.absorbByte_cases b s
  · rw [e, State.respond_scratch]
    exact State.releaseScratch_round_le _
  · rwa [State.absorbByte_scratch_of_room b room]

/-- ABSORB counts whole blocks, also where the bit counter wraps (R25). -/
theorem State.absorbByte_bits_whole_blocks (b : Byte) {s : State} (whole : s.bits.toNat % 512 = 0) :
    (s.absorbByte b).bits.toNat % 512 = 0 := by
  rw [State.absorbByte_bits]
  split
  · rw [BitVec.toNat_add, BitVec.toNat_ofNat]
    omega
  · exact whole

@[simp] theorem State.padTail_draws (n : Nat) (s : State) : (s.padTail n).draws = s.draws := by
  unfold State.padTail
  split <;> simp

@[simp] theorem State.padAndCompress_draws (s : State) : s.padAndCompress.draws = s.draws := by
  simp [State.padAndCompress]

@[simp] theorem State.deliverDigest_draws (s : State) : s.deliverDigest.draws = s.draws := rfl
@[simp] theorem State.deliverDigest_bits (s : State) : s.deliverDigest.bits = s.consume.bits := rfl
@[simp] theorem State.deliverDigest_scratch (s : State) :
    s.deliverDigest.scratch = s.consume.releaseScratch.scratch := rfl

@[simp] theorem State.finalizeMessage_draws (s : State) : s.finalizeMessage.draws = s.draws := by
  rw [State.finalizeMessage_eq, State.deliverDigest_draws, State.padAndCompress_draws]

theorem State.finalizeMessage_bits_whole_blocks (s : State) : s.finalizeMessage.bits.toNat % 512 = 0 := by
  rw [State.finalizeMessage_eq, State.deliverDigest_bits]
  exact State.consume_bits_whole_blocks _

theorem State.finalizeMessage_round_le (s : State) : s.finalizeMessage.scratch.t.toNat ≤ 64 := by
  rw [State.finalizeMessage_eq, State.deliverDigest_scratch]
  exact State.releaseScratch_round_le _

end Sys2Proof.Machine

/-! PROOFS. The invariants of R26, R20, R90, R180 and R206, kept by each kind of step. -/

namespace Sys2Proof.Machine

/-- What the invariants say of the response port and the registers it agrees with (R90, R180, R206). -/
def State.Answers (s : State) : Option Response → Prop
  | none => True
  | some .ok => s.phase = .absorbing ∧ s.fault = none
  | some (.digest d) => s.digestValid = true ∧ s.digestOutput = d
  | some (.fault c) => s.fault = some c

/-- The invariants from their parts: the registers, and the response the port shows. -/
theorem State.Inv.of_answers {s : State} {r : Option Response} (whole : s.bits.toNat % 512 = 0)
    (legal : s.scratch.t.toNat ≤ 64) (invalid : s.fault = some .invalidState → s.phase = .finalized)
    (port : s.response = r) (answers : s.Answers r) : s.Inv := by
  subst port
  refine ⟨whole, legal, invalid, fun c h => ?_, fun h => ?_, fun d h => ?_⟩ <;> rwa [h] at answers

theorem State.Inv.idle {s : State} (inv : s.Inv) : s.idle.Inv :=
  .of_answers inv.bits_whole_blocks inv.round_index_legal inv.invalid_state_finalized s.idle_response trivial

/-- Both resets load legal register values, whatever they found (R34). -/
theorem State.hardwareReset_inv (i : Option CmdWord) (s : State) : (s.hardwareReset i).Inv :=
  .of_answers (by simp) (s.hardwareReset_round_le i) (by simp) (s.hardwareReset_response i) trivial

theorem State.loadInitial_inv {s : State} (legal : s.scratch.t.toNat ≤ 64) : (s.loadInitial.respond .ok).Inv :=
  .of_answers (by simp) legal (by simp) (s.loadInitial.respond_response .ok) ⟨rfl, rfl⟩

/-- An accepted ABSORB answers OK and goes on absorbing (R100). -/
theorem State.absorbByte_inv (b : Byte) {s : State} (whole : s.bits.toNat % 512 = 0)
    (legal : s.scratch.t.toNat ≤ 64) (fault : s.fault = none) (phase : s.phase = .absorbing) : (s.absorbByte b).Inv :=
  .of_answers (State.absorbByte_bits_whole_blocks b whole) (State.absorbByte_round_le b legal) (by simp [fault])
    (s.absorbByte_response b) ⟨(s.absorbByte_phase b).trans phase, (s.absorbByte_fault b).trans fault⟩

/-- An accepted FINALIZE answers what the digest output then shows (R169, R180). -/
theorem State.finalizeMessage_inv {s : State} (fault : s.fault = none) : s.finalizeMessage.Inv :=
  .of_answers s.finalizeMessage_bits_whole_blocks s.finalizeMessage_round_le (by simp) s.finalizeMessage_response
    ⟨State.finalizeMessage_digestValid fault, State.finalizeMessage_digestOutput fault⟩

/-- Fault-stop repeats the recorded code (R206). -/
theorem State.refuse_inv {s : State} {c : FaultCause} (inv : s.Inv) (rest : List HostEvent)
    (fault : s.fault = some c) : ((s.take rest).refuse c).Inv :=
  .of_answers inv.bits_whole_blocks inv.round_index_legal inv.invalid_state_finalized
    ((s.take rest).refuse_response c) fault

/-- A first fault answers the code it records; INVALID_STATE is one of phase FINALIZED (R202, R203). -/
theorem State.raise_inv {s : State} {c : FaultCause} (inv : s.Inv) (rest : List HostEvent)
    (cause : c = .invalidState → s.phase = .finalized) : ((s.take rest).raise c).Inv :=
  .of_answers inv.bits_whole_blocks inv.round_index_legal (fun h => cause (Option.some.inj h))
    ((s.take rest).raise_response c) rfl

/-- Settles O30: each kind of step keeps the invariants. -/
theorem stepKeepsInvariants : Obligations.StepKeepsInvariants := by
  intro s t inv h
  cases State.Steps.of_step h with
  | idle _ => exact inv.idle
  | hardwareReset _ => exact State.hardwareReset_inv _ _
  | reset _ => exact State.loadInitial_inv inv.round_index_legal
  | absorb _ fault phase => exact State.absorbByte_inv _ inv.bits_whole_blocks inv.round_index_legal fault phase
  | finalize _ fault _ => exact State.finalizeMessage_inv fault
  | refuse _ fault => exact State.refuse_inv inv _ fault
  | raise _ _ cause => exact State.raise_inv inv _ cause

/-- Settles O29: reset leaves `bits` 0, a legal round index, no fault and an empty port. -/
theorem resetMeetsInvariants : Obligations.ResetMeetsInvariants :=
  .of_answers rfl (Scratch.ofWords_round_le _ _) nofun rfl trivial

end Sys2Proof.Machine

/-! PROOFS. The message invariant I4 along every step (R26), and the engine's first message (R34). -/

namespace Sys2Proof.Machine

theorem State.hardwareReset_holds (i : Option CmdWord) (s : State) : (s.hardwareReset i).Holds [] where
  __ := s.loadInitial_holds
  buf_tail := fun k _ hk => absurd hk (Nat.not_lt_zero k)

/-- Settles O49: an absorbing engine without a fault stays idle with its message, is reset to the empty message, or
extends its message by a byte; after FINALIZE it does not absorb, and after a refused word it has a fault. -/
theorem stepKeepsMessageInvariant : Obligations.StepKeepsMessageInvariant := by
  intro s t held h absorbing noFault
  cases State.Steps.of_step h with
  | idle _ =>
    obtain ⟨m, held⟩ := held absorbing noFault
    exact ⟨m, held.of_toEngine_eq rfl⟩
  | hardwareReset _ => exact ⟨[], State.hardwareReset_holds _ _⟩
  | reset _ => exact ⟨[], (State.loadInitial_holds _).of_toEngine_eq rfl⟩
  | @absorb b rest _ fault phase =>
    obtain ⟨m, held⟩ := held phase fault
    exact ⟨m ++ [b], (held.take rest).absorbByte b⟩
  | finalize _ _ _ => simp at absorbing
  | refuse _ fault => simp [fault] at noFault
  | raise _ _ _ => simp at noFault

/-- Settles O48: ABSORB of a held message stores the byte behind its tail, and compresses the block it completes. -/
theorem absorbExtendsMessage : Obligations.AbsorbExtendsMessage := fun s _ b held =>
  ⟨s.absorbByte b, exec_absorb_effect b held.no_fault held.absorbing, s.absorbByte_response b, held.absorbByte b⟩

/-- Settles O47: the reset state has the registers a RESET loads, and no byte is held. -/
theorem resetHoldsEmptyMessage : Obligations.ResetHoldsEmptyMessage :=
  ⟨State.reset.loadInitial_holds.of_toEngine_eq rfl, fun s =>
    ⟨_, exec_reset s, s.loadInitial_holds.of_toEngine_eq rfl⟩⟩

end Sys2Proof.Machine

/-! PROOFS. The reset states (R22, R34, R230). -/

namespace Sys2Proof.Machine

theorem State.digestValid_of_absorbing {s : State} (h : s.phase = .absorbing) : s.digestValid = false := by
  simp [State.digestValid, h]

/-- Settles O12: the fields of the reset state, and the words of the IV table. -/
theorem resetStateValues : Obligations.ResetStateValues :=
  ⟨rfl, rfl, rfl, rfl, rfl, State.digestValid_of_absorbing rfl, rfl⟩

/-- Settles O10: the event gives the reset registers from any state, whether or not it interrupts a word. -/
theorem hardwareResetGivesResetState : Obligations.HardwareResetGivesResetState := fun s i rest host =>
  ⟨_, step_hardware_reset s i rest host, rfl, rfl, rfl, rfl, rfl, rfl, State.digestValid_of_absorbing rfl, rfl⟩

end Sys2Proof.Machine

/-! PROOFS. ABSORB and FINALIZE: what they write and what they leave (R35, R100, R103, R204). -/

namespace Sys2Proof.Machine

/-- Settles O15: the fields of an accepted ABSORB, at cursor 63. -/
theorem absorbCompletesBlock : Obligations.AbsorbCompletesBlock := by
  intro s b fault phase full
  have stored : bufStore s.buf s.fill b = s.buf.set 63 b := by
    rw [full]
    rfl
  refine ⟨s.absorbByte b, exec_absorb_effect b fault phase, ?_, ?_, ?_, ?_, ?_, ?_, s.absorbByte_response b,
    s.absorbByte_host b, s.absorbByte_draws b⟩
  · rw [State.absorbByte_buf, stored]
  · rw [State.absorbByte_hash, if_pos full, stored]
  · rw [State.absorbByte_fill, full]
    rfl
  · rw [State.absorbByte_bits, if_pos full, BitVec.toNat_add]
    rfl
  · rw [State.absorbByte_phase, phase]
  · rw [State.absorbByte_fault, fault]

/-- Settles O16: refused, ABSORB writes only the response and a first fault; accepted, it stores at the cursor, and
writes `H`, `bits` and the scratch registers only at cursor 63. -/
theorem absorbFrame : Obligations.AbsorbFrame := by
  intro s t b h
  rw [exec_absorb, Host.Outcome.next.injEq] at h
  subst h
  obtain ⟨c, -, e⟩ | ⟨fault, phase, e⟩ | ⟨fault, phase, e⟩ := State.whenAbsorbing_cases (State.absorbByte b) s
  · simp [e]
  · simp [e, fault, phase]
  · have other (k : Nat) (hk : k < 64) (ne : k ≠ s.fill.toNat) : (s.absorbByte b).buf[k] = s.buf[k] := by
      rw [State.absorbByte_buf, bufStore_other _ _ _ k hk ne]
    have noBlock (room : s.fill ≠ 63#6) : (s.absorbByte b).hash = s.hash ∧ (s.absorbByte b).bits = s.bits ∧
        (s.absorbByte b).scratch = s.scratch := by
      rw [State.absorbByte_hash, State.absorbByte_bits, if_neg room, if_neg room,
        State.absorbByte_scratch_of_room b room]
      exact ⟨rfl, rfl, rfl⟩
    rw [e]
    exact ⟨s.absorbByte_phase b, s.absorbByte_host b, s.absorbByte_draws b, other, noBlock,
      fun _ => s.absorbByte_fault b, by simp [fault, phase], fun _ => s.absorbByte_fault b⟩

/-- Settles O20: refused, FINALIZE writes only the response and a first fault; accepted, it leaves whole blocks in
`bits` and no fault. -/
theorem finalizeFrame : Obligations.FinalizeFrame := by
  intro s t h
  rw [exec_finalize, Host.Outcome.next.injEq] at h
  subst h
  obtain ⟨c, fault, e⟩ | ⟨fault, phase, e⟩ | ⟨fault, phase, e⟩ := State.whenAbsorbing_cases State.finalizeMessage s
  · simp [e, fault]
  · simp [e, fault, phase]
  · rw [e]
    exact ⟨s.finalizeMessage_host, s.finalizeMessage_draws, fun _ => s.finalizeMessage_fault,
      fun _ => s.finalizeMessage_bits_whole_blocks, by simp [fault, phase], fun _ => s.finalizeMessage_fault⟩

end Sys2Proof.Machine

/-! PROOFS. Which steps write the registers, the phase and the hash words (R21, R27, R28). -/

namespace Sys2Proof.Machine

/-- Settles O25: with a fault recorded the engine idles or refuses, unless the host resets it. -/
theorem faultedEngineIsQuiescent : Obligations.FaultedEngineIsQuiescent := by
  intro s t c faulted h noReset noHardwareReset
  cases State.Steps.of_step h with
  | idle _ => rfl
  | hardwareReset host => exact absurd host (noHardwareReset _ _)
  | reset host => exact absurd host (noReset _)
  | absorb _ fault _ => simp [faulted] at fault
  | finalize _ fault _ => simp [faulted] at fault
  | refuse _ _ => rfl
  | raise _ fault _ => simp [faulted] at fault

/-- Settles O26: every other kind of step leaves `phase`. -/
theorem phaseChangesOnlyBy : Obligations.PhaseChangesOnlyBy := by
  intro s t h changed
  cases State.Steps.of_step h with
  | idle _ => exact absurd rfl changed
  | hardwareReset host => exact .inr ⟨rfl, .inr ⟨_, _, host⟩⟩
  | reset host => exact .inr ⟨rfl, .inl ⟨_, host⟩⟩
  | absorb _ _ _ => simp at changed
  | finalize host fault _ => exact .inl ⟨State.finalizeMessage_phase _, fault, _, host⟩
  | refuse _ _ => exact absurd rfl changed
  | raise _ _ _ => exact absurd rfl changed

/-- Settles O27: every other kind of step leaves `H`; so does ABSORB below cursor 63. -/
theorem hashWrittenOnlyBy : Obligations.HashWrittenOnlyBy := by
  intro s t h changed
  cases State.Steps.of_step h with
  | idle _ => exact absurd rfl changed
  | hardwareReset host => exact .inr (.inl ⟨_, _, host⟩)
  | reset host => exact .inl ⟨_, host⟩
  | absorb host fault phase =>
    have full : s.fill = 63#6 := by
      by_contra room
      exact changed ((State.absorbByte_hash _ _).trans (if_neg room))
    exact .inr (.inr ⟨fault, phase, .inl ⟨full, _, _, host⟩⟩)
  | finalize host fault phase => exact .inr (.inr ⟨fault, phase, .inr ⟨_, host⟩⟩)
  | refuse _ _ => exact absurd rfl changed
  | raise _ _ _ => exact absurd rfl changed

end Sys2Proof.Machine

/-! PROOFS. Two blocks that agree below a position, and the stores that carry the agreement up (R32, R59, R163). -/

namespace Sys2Proof.Machine

/-- The first `n` bytes of the two blocks are the same. -/
def SameBelow (n : Nat) (x y : Block) : Prop := ∀ k (h : k < 64), k < n → x[k] = y[k]

theorem SameBelow.bufStore {x y : Block} {p : BitVec 6} (same : SameBelow p.toNat x y) (b : Byte) :
    SameBelow (p.toNat + 1) (bufStore x p b) (bufStore y p b) := by
  intro k h hk
  rw [bufStore_getElem, bufStore_getElem]
  split
  · rfl
  · exact same k h (by omega)

theorem SameBelow.bufZeroFill {x y : Block} {lo : Nat} (same : SameBelow lo x y) (hi : Nat) :
    SameBelow hi (bufZeroFill x lo hi) (bufZeroFill y lo hi) := by
  intro k h hk
  rw [bufZeroFill_getElem, bufZeroFill_getElem]
  split
  · rfl
  · exact same k h (by omega)

theorem SameBelow.bufStoreLength_eq {x y : Block} (same : SameBelow 56 x y) (totalBits : BitVec 64) :
    bufStoreLength x totalBits = bufStoreLength y totalBits := by
  apply Vector.ext
  intro k h
  rw [bufStoreLength_getElem, bufStoreLength_getElem]
  split
  · rfl
  · exact same k h (by omega)

theorem SameBelow.eq {x y : Block} (same : SameBelow 64 x y) : x = y :=
  Vector.ext fun k h => same k h h

end Sys2Proof.Machine

/-! PROOFS. No operation reads what is unspecified (R31, R32, R36): states with the same readable part stay so. -/

namespace Sys2Proof.Machine

/-- The states before an accepted ABSORB or FINALIZE agree in all that it reads. -/
theorem State.SameReadable.absorbing_inputs {s t : State} (same : s.SameReadable t) (phase : s.phase = .absorbing) :
    s.fill = t.fill ∧ s.bits = t.bits ∧ SameBelow s.fill.toNat s.buf t.buf :=
  ⟨same.fill phase, same.bits phase, same.buf phase⟩

theorem State.SameReadable.take {s t : State} (same : s.SameReadable t) (rest : List HostEvent) :
    (s.take rest).SameReadable (t.take rest) where
  __ := same
  host := rfl

theorem State.SameReadable.idle {s t : State} (same : s.SameReadable t) : s.idle.SameReadable t.idle where
  __ := same
  response := rfl

theorem State.SameReadable.respond {s t : State} (same : s.SameReadable t) (r : Response) :
    (s.respond r).SameReadable (t.respond r) where
  __ := same
  response := rfl

theorem State.SameReadable.raise {s t : State} (same : s.SameReadable t) (c : FaultCause) :
    (s.raise c).SameReadable (t.raise c) where
  __ := same
  fault := rfl
  response := rfl

/-- A reset empties the buffer, so no byte of it is readable. -/
theorem State.SameReadable.loadInitial {s t : State} (same : s.SameReadable t) :
    s.loadInitial.SameReadable t.loadInitial where
  hash := rfl
  phase := rfl
  fault := rfl
  response := same.response
  host := same.host
  fill := fun _ => rfl
  bits := fun _ => rfl
  buf := fun _ k _ hk => absurd hk (Nat.not_lt_zero k)

theorem State.SameReadable.hardwareReset {s t : State} (same : s.SameReadable t) (i : Option CmdWord) :
    (s.hardwareReset i).SameReadable (t.hardwareReset i) where
  __ := same.loadInitial
  response := rfl
  buf := fun _ k _ hk => absurd hk (Nat.not_lt_zero k)

/-- The byte stored at the cursor is the one more byte that is readable; a completed block is readable as a whole. -/
theorem State.SameReadable.absorbByte {s t : State} (same : s.SameReadable t) (phase : s.phase = .absorbing)
    (b : Byte) : (s.absorbByte b).SameReadable (t.absorbByte b) := by
  obtain ⟨fill, bits, below⟩ := same.absorbing_inputs phase
  have stored := below.bufStore b
  refine ⟨?_, by simp [same.phase], by simp [same.fault], by simp, by simp [same.host], fun _ => ?_, fun _ => ?_,
    fun _ => ?_⟩
  · rw [State.absorbByte_hash, State.absorbByte_hash, ← fill, same.hash]
    split
    · next full =>
      rw [full] at stored ⊢
      rw [stored.eq]
    · rfl
  · rw [State.absorbByte_fill, State.absorbByte_fill, fill]
  · rw [State.absorbByte_bits, State.absorbByte_bits, fill, bits]
  · intro k h hk
    rw [State.absorbByte_fill, BitVec.toNat_add, BitVec.toNat_ofNat] at hk
    rw [State.absorbByte_buf, State.absorbByte_buf, ← fill]
    exact stored k h (by omega)

/-- Padding overwrites every stale byte before a compression reads it. -/
theorem State.SameReadable.padAndCompress_hash {s t : State} (same : s.SameReadable t) (phase : s.phase = .absorbing) :
    s.padAndCompress.hash = t.padAndCompress.hash := by
  obtain ⟨fill, bits, below⟩ := same.absorbing_inputs phase
  have padded (hi : Nat) := (below.bufStore 0x80#8).bufZeroFill hi
  by_cases short : s.fill.toNat < 56
  · rw [State.padAndCompress_hash_short s short, State.padAndCompress_hash_short t (fill ▸ short), ← fill, ← bits,
      same.hash, (padded 56).bufStoreLength_eq]
  · have long : 56 ≤ s.fill.toNat := Nat.le_of_not_lt short
    rw [State.padAndCompress_hash_long s long, State.padAndCompress_hash_long t (fill ▸ long), ← fill, ← bits,
      same.hash, (padded 64).eq]

theorem State.SameReadable.finalizeMessage {s t : State} (same : s.SameReadable t) (phase : s.phase = .absorbing) :
    s.finalizeMessage.SameReadable t.finalizeMessage := by
  have hash := same.padAndCompress_hash phase
  refine ⟨by simp [hash], by simp, by simp [same.fault], by simp [hash], by simp [same.host], ?_, ?_, ?_⟩ <;>
    exact fun absorbing => by simp at absorbing

theorem State.SameReadable.whenAbsorbing {s t : State} {effect : State → State} (same : s.SameReadable t)
    (accepted : s.phase = .absorbing → (effect s).SameReadable (effect t)) :
    (s.whenAbsorbing effect).SameReadable (t.whenAbsorbing effect) := by
  obtain ⟨c, fault, e⟩ | ⟨fault, phase, e⟩ | ⟨fault, phase, e⟩ := State.whenAbsorbing_cases effect s
  · rw [e, State.whenAbsorbing_faulted effect t c (same.fault ▸ fault)]
    exact same.respond _
  · rw [e, State.whenAbsorbing_finalized effect t (same.fault ▸ fault) (same.phase ▸ phase)]
    exact same.raise _
  · rw [e, State.whenAbsorbing_effect effect t (same.fault ▸ fault) (same.phase ▸ phase)]
    exact accepted phase

theorem State.SameReadable.illegalWord {s t : State} (same : s.SameReadable t) :
    s.illegalWord.SameReadable t.illegalWord := by
  unfold State.illegalWord
  rw [← same.fault]
  cases s.fault with
  | none => exact same.raise _
  | some c => exact same.respond _

theorem State.SameReadable.exec {s t s' : State} (same : s.SameReadable t) {i : Instr} (h : exec i s = .next s') :
    ∃ t', Machine.exec i t = .next t' ∧ s'.SameReadable t' := by
  cases i with
  | reset =>
    rw [exec_reset, Host.Outcome.next.injEq] at h
    exact ⟨_, exec_reset t, h ▸ same.loadInitial.respond .ok⟩
  | absorb b =>
    rw [exec_absorb, Host.Outcome.next.injEq] at h
    exact ⟨_, exec_absorb b t, h ▸ same.whenAbsorbing fun phase => same.absorbByte phase b⟩
  | finalize =>
    rw [exec_finalize, Host.Outcome.next.injEq] at h
    exact ⟨_, exec_finalize t, h ▸ same.whenAbsorbing same.finalizeMessage⟩

theorem State.SameReadable.step {s t s' : State} (same : s.SameReadable t) (h : step s = .next s') :
    ∃ t', Machine.step t = .next t' ∧ s'.SameReadable t' := by
  obtain ⟨host, rfl⟩ | ⟨i, rest, host, rfl⟩ | ⟨w, rest, i, host, decoded, run⟩ | ⟨w, rest, why, host, decoded, rfl⟩ :=
    step_cases s s' h <;> rw [same.host] at host
  · exact ⟨_, step_nothing_presented t host, same.idle⟩
  · exact ⟨_, step_hardware_reset t i rest host, (same.take rest).hardwareReset i⟩
  · rw [step_word_presented t w rest host, runCommand_command w i _ decoded]
    exact (same.take rest).exec run
  · rw [step_word_presented t w rest host, runCommand_illegal w why _ decoded]
    exact ⟨_, rfl, (same.take rest).illegalWord⟩

/-- The host observes only what is readable (R29, R242). -/
theorem State.SameReadable.observe_eq {s t : State} (same : s.SameReadable t) : s.observe = t.observe := by
  have valid : s.digestValid = t.digestValid := by simp only [State.digestValid, same.phase, same.fault]
  have digest : (if t.digestValid then some s.digestOutput else none) =
      if t.digestValid then some t.digestOutput else none :=
    ite_congr rfl
      (fun shown => by rw [State.digestOutput, State.digestOutput, valid, if_pos shown, if_pos shown, same.hash])
      fun _ => rfl
  simp only [State.observe, digest, valid, same.response, same.phase, same.fault]

/-- Settles O31: a step reads only the readable part, and the next states agree in theirs. -/
theorem unspecifiedStateIsNeverRead : Obligations.UnspecifiedStateIsNeverRead := by
  intro s t s' same h
  obtain ⟨t', next, same'⟩ := same.step h
  exact ⟨t', next, same', same'.observe_eq⟩

end Sys2Proof.Machine

/-! PROOFS. The block buffer is big-endian: the word load and the length store as numbers (R53, R57, R58). -/

namespace Sys2Proof.Machine

/-- A byte appended below a word of any width is the next digit of base 256. -/
theorem toNat_append_byte {n : Nat} (x : BitVec n) (y : Byte) : (x ++ y).toNat = x.toNat * 2 ^ 8 + y.toNat := by
  rw [BitVec.toNat_append, ← Nat.shiftLeft_add_eq_or_of_lt y.isLt, Nat.shiftLeft_eq]

/-- The word load as a number, the first byte the most significant (R57). -/
theorem bufLoadWord_toNat (buf : Block) (i : Fin 16) :
    (bufLoadWord buf i).toNat =
      buf[4 * i.val].toNat * 2 ^ 24 + buf[4 * i.val + 1].toNat * 2 ^ 16 +
        buf[4 * i.val + 2].toNat * 2 ^ 8 + buf[4 * i.val + 3].toNat := by
  rw [bufLoadWord, toNat_append_byte, toNat_append_byte, toNat_append_byte]
  omega

/-- Settles O37: the register `w[i]` takes the loaded word. -/
theorem wordLoadIsBigEndian : Obligations.WordLoadIsBigEndian := by
  intro buf sc i
  rw [← bufLoadWord_toNat, loadScheduleWord, Vector.getElem_set_self]

theorem lengthByte_toNat (v : BitVec 64) (j : Nat) :
    (lengthByte v j).toNat = v.toNat / 2 ^ (56 - 8 * j) % 256 := by
  rw [lengthByte, BitVec.extractLsb'_toNat, Nat.shiftRight_eq_div_pow]

/-- Settles O38: from index 56 on the stored buffer reads the length's bytes, below it the old ones. -/
theorem lengthStoreIsBigEndian : Obligations.LengthStoreIsBigEndian := by
  refine fun s v => ⟨fun j hj => ?_, fun k hk => ?_⟩
  · rw [State.storeLength_buf, bufStoreLength_getElem _ _ _ (by omega), if_pos (by omega), Nat.add_sub_cancel_left,
      lengthByte_toNat]
  · rw [State.storeLength_buf, bufStoreLength_getElem _ _ _ (by omega), if_neg (by omega)]

/-- Byte `k` of word 14 or 15 after the length store is byte `k` of that half of the length. -/
theorem bufStoreLength_getElem_word (buf : Block) (v : BitVec 64) {i k : Nat} (lo : 14 ≤ i) (hi : i < 16)
    (hk : k < 4) :
    (bufStoreLength buf v)[4 * i + k].toNat = v.toNat / 2 ^ (32 * (15 - i)) / 2 ^ (24 - 8 * k) % 256 := by
  have position : 56 - 8 * (4 * i + k - 56) = 32 * (15 - i) + (24 - 8 * k) := by omega
  rw [bufStoreLength_getElem _ _ _ (by omega), if_pos (by omega), lengthByte_toNat, position, Nat.pow_add,
    Nat.div_div_eq_div_mul]

/-- Words 14 and 15 after the length store are the length's two halves, the high half first (R53). -/
theorem bufLoadWord_bufStoreLength (buf : Block) (v : BitVec 64) (i : Fin 16) (lo : 14 ≤ i.val) :
    (bufLoadWord (bufStoreLength buf v) i).toNat = v.toNat / 2 ^ (32 * (15 - i.val)) % 2 ^ 32 := by
  have byte (k : Nat) (hk : k < 4) := bufStoreLength_getElem_word buf v lo i.isLt hk
  have byte0 : (bufStoreLength buf v)[4 * i.val].toNat = v.toNat / 2 ^ (32 * (15 - i.val)) / 2 ^ 24 % 256 :=
    byte 0 (by decide)
  rw [bufLoadWord_toNat, byte0, byte 1 (by decide), byte 2 (by decide), byte 3 (by decide)]
  omega

/-- Settles O39: the two halves of a 64-bit length, as numbers. -/
theorem lengthFieldIsLastTwoWords : Obligations.LengthFieldIsLastTwoWords := by
  intro buf v
  have high : v.toNat / 2 ^ 32 < 2 ^ 32 := by omega
  constructor
  · exact (bufLoadWord_bufStoreLength buf v 14 (by decide)).trans (Nat.mod_eq_of_lt high)
  · simpa using bufLoadWord_bufStoreLength buf v 15 (by decide)

end Sys2Proof.Machine

/-! PROOFS. ABSORB of a byte that completes no block, as the whole next state (R59, R100). -/

namespace Sys2Proof.Machine

theorem State.absorbByte_of_room (b : Byte) {s : State} (room : s.fill ≠ 63#6) :
    s.absorbByte b = { s with buf := bufStore s.buf s.fill b, fill := s.fill + 1#6, response := some .ok } := by
  obtain ⟨full, -⟩ | ⟨-, e⟩ := State.absorbByte_cases b s
  · exact absurd full room
  · exact e

/-- Settles O14: the checks pass, and below cursor 63 ABSORB stores the byte and advances the cursor. -/
theorem absorbStoresByteAtCursor : Obligations.AbsorbStoresByteAtCursor := by
  intro s b fault phase room
  rw [exec_absorb_effect b fault phase, State.absorbByte_of_room b room]
  rfl

end Sys2Proof.Machine

/-! PROOFS. The round-constant ROM (R50, R55). -/

namespace Sys2Proof.Machine

/-- Read at all its indices in order, the ROM is its table. -/
theorem map_kRom_finRange : (List.finRange 64).map kRom = kTable :=
  List.map_getElem_finRange kTable

/-- Settles O57: the four rows of the table are the constants of R55. -/
theorem roundConstantsAreTheTable : Obligations.RoundConstantsAreTheTable :=
  map_kRom_finRange

end Sys2Proof.Machine

/-! PROOFS. The decoder as the inverse of the encoder (R83), as the field tests of R84, and as the opcode table's match
and mask columns (R83). -/

namespace Sys2Proof.Machine

theorem decode_eq_command_iff {w : CmdWord} {i : Instr} : decode w = .command i ↔ w = encode i :=
  ⟨eq_encode_of_decode, fun h => h ▸ decode_encode i⟩

/-- Settles O1: the word of a decoded command is its two fields put together, and the fields of a command's word decode
to that command. -/
theorem decodeIffEncode : Obligations.DecodeIffEncode := fun _ _ => decode_eq_command_iff

/-- A word is illegal when it is no command's word (R84). -/
theorem exists_illegal_of_ne_encode {w : CmdWord} (h : ∀ i, w ≠ encode i) : ∃ why, decode w = .illegal why := by
  cases decoded : decode w with
  | command i => exact absurd (eq_encode_of_decode decoded) (h i)
  | illegal why => exact ⟨why, rfl⟩

theorem toNat_encode_reset : (encode .reset).toNat = 0 := rfl

theorem toNat_encode_finalize : (encode .finalize).toNat = 512 := rfl

theorem toNat_encode_absorb (b : Byte) : (encode (.absorb b)).toNat = 256 + b.toNat :=
  toNat_append_byte 0b01#2 b

/-- A word whose fields are no command's is illegal; `op` and `data` as numbers (R85). -/
theorem exists_illegal_of_fields {w : CmdWord} (absorb : w.toNat / 256 ≠ 1)
    (others : w.toNat / 256 = 3 ∨ w.toNat % 256 ≠ 0) : ∃ why, decode w = .illegal why := by
  refine exists_illegal_of_ne_encode fun i e => ?_
  subst e
  cases i with
  | reset => simp [toNat_encode_reset] at others
  | absorb b =>
    rw [toNat_encode_absorb] at absorb
    omega
  | finalize => simp [toNat_encode_finalize] at others

/-- Settles O2: fields that fit a command make its word, and all others make no command's word. -/
theorem decodeFollowsFieldTests : Obligations.DecodeFollowsFieldTests := by
  intro w
  refine ⟨fun ⟨op, data⟩ => ?_, fun op => ?_, fun ⟨op, data⟩ => ?_, fun ⟨op, data⟩ => ?_, fun ⟨op, data⟩ => ?_,
    fun op => ?_⟩
  · rw [decode_eq_command_iff, ← BitVec.toNat_inj, toNat_encode_reset]
    omega
  · rw [decode_eq_command_iff, ← BitVec.toNat_inj, toNat_encode_absorb, BitVec.toNat_ofNat]
    omega
  · rw [decode_eq_command_iff, ← BitVec.toNat_inj, toNat_encode_finalize]
    omega
  · exact exists_illegal_of_fields (by omega) (.inr data)
  · exact exists_illegal_of_fields (by omega) (.inr data)
  · exact exists_illegal_of_fields (by omega) (.inl op)

/-- The mask `0x300` keeps the op field and clears the data field. -/
theorem and_absorb_mask (w : CmdWord) : w &&& 0x300#10 = opField w ++ 0x00#8 := by
  calc w &&& 0x300#10 = (opField w ++ dataField w) &&& (0b11#2 ++ 0x00#8) := by rw [opField_append_dataField]; rfl
    _ = (opField w &&& BitVec.allOnes 2) ++ (dataField w &&& 0x00#8) := BitVec.and_append
    _ = opField w ++ 0x00#8 := by rw [BitVec.and_allOnes, BitVec.and_zero]

/-- The row of ABSORB selects the words of ABSORB, with any operand (R83). -/
theorem and_absorb_mask_eq_match_iff (w : CmdWord) : w &&& 0x300#10 = 0x100#10 ↔ ∃ b, w = encode (.absorb b) := by
  constructor
  · intro row
    have op : opField w = 0b01#2 := BitVec.append_left_inj 0x00#8 |>.mp ((and_absorb_mask w).symm.trans row)
    exact ⟨dataField w, by rw [encode, ← op, opField_append_dataField]⟩
  · rintro ⟨b, rfl⟩
    exact Laws.TableRow.absorb b

theorem and_full_mask (w : CmdWord) : w &&& 0x3FF#10 = w := BitVec.and_allOnes

/-- Settles O3: the full mask leaves one word per row, and ABSORB's mask leaves the op field. -/
theorem maskAndMatchSelectCommand : Obligations.MaskAndMatchSelectCommand := by
  intro w
  simp only [decode_eq_command_iff, and_full_mask]
  exact ⟨Iff.rfl, and_absorb_mask_eq_match_iff w, Iff.rfl⟩

/-- Settles O4: five words are encodings, and three have the fields of R85. -/
theorem workedEncodingsDecode : Obligations.WorkedEncodingsDecode :=
  ⟨decode_encode .reset, decode_encode (.absorb 0x61#8), decode_encode (.absorb 0x00#8),
    decode_encode (.absorb 0xFF#8), decode_encode .finalize, by decide, by decide, by decide⟩

end Sys2Proof.Machine

/-! PROOFS. The response to a presented word (R90, R206), and the observations of a run of words (R242). -/

namespace Sys2Proof.Machine

/-- How a state answers a decoded word, the state after the step being `t`: the three accepted commands, and a word that
is refused or raises a fault (R90, R206, R207). -/
inductive State.AnswersWord (s t : State) : Decoded → Response → Prop where
  | reset : s.AnswersWord t (.command .reset) .ok
  | absorb {b} (fault : s.fault = none) (phase : s.phase = .absorbing) : s.AnswersWord t (.command (.absorb b)) .ok
  | finalize {d} (fault : s.fault = none) (phase : s.phase = .absorbing) :
      s.AnswersWord t (.command .finalize) (.digest d)
  | fault {d c} (notReset : d ≠ .command .reset)
      (refused : s.fault = none → s.phase = .absorbing → ∃ why, d = .illegal why) (code : t.fault = some c) :
      s.AnswersWord t d (.fault c)

/-- The checks before ABSORB and FINALIZE answer a fault, or leave the answer to the command's effect (R207). -/
theorem State.whenAbsorbing_answersWord {s : State} {effect : State → State} {d : Decoded}
    (notReset : d ≠ .command .reset)
    (accepted : s.fault = none → s.phase = .absorbing →
      ∃ r, (effect s).response = some r ∧ s.AnswersWord (effect s) d r) :
    ∃ r, (s.whenAbsorbing effect).response = some r ∧ s.AnswersWord (s.whenAbsorbing effect) d r := by
  obtain ⟨c, fault, e⟩ | ⟨fault, phase, e⟩ | ⟨fault, phase, e⟩ := State.whenAbsorbing_cases effect s
  · rw [e]
    exact ⟨_, s.refuse_response c, .fault notReset (by simp [fault]) fault⟩
  · rw [e]
    exact ⟨_, s.raise_response _, .fault notReset (by simp [phase]) (s.raise_fault _)⟩
  · rw [e]
    exact accepted fault phase

theorem State.illegalWord_answersWord (s : State) (why : Reject) :
    ∃ r, s.illegalWord.response = some r ∧ s.AnswersWord s.illegalWord (.illegal why) r := by
  obtain ⟨c, fault, e⟩ | ⟨fault, e⟩ := State.illegalWord_cases s
  · rw [e]
    exact ⟨_, s.refuse_response c, .fault nofun (fun _ _ => ⟨why, rfl⟩) fault⟩
  · rw [e]
    exact ⟨_, s.raise_response _, .fault nofun (fun _ _ => ⟨why, rfl⟩) (s.raise_fault _)⟩

theorem exec_answersWord (i : Instr) (s : State) :
    ∃ t, exec i s = .next t ∧ ∃ r, t.response = some r ∧ s.AnswersWord t (.command i) r := by
  cases i with
  | reset => exact ⟨_, exec_reset s, _, s.loadInitial.respond_response .ok, .reset⟩
  | absorb b =>
    exact ⟨_, exec_absorb b s, State.whenAbsorbing_answersWord nofun fun fault phase =>
      ⟨_, s.absorbByte_response b, .absorb fault phase⟩⟩
  | finalize =>
    exact ⟨_, exec_finalize s, State.whenAbsorbing_answersWord nofun fun fault phase =>
      ⟨_, s.finalizeMessage_response, .finalize fault phase⟩⟩

theorem runCommand_answersWord (w : CmdWord) (s : State) :
    ∃ t, runCommand w s = .next t ∧ ∃ r, t.response = some r ∧ s.AnswersWord t (decode w) r := by
  cases decoded : decode w with
  | command i =>
    rw [runCommand_command w i s decoded]
    exact exec_answersWord i s
  | illegal why => exact ⟨_, runCommand_illegal w why s decoded, s.illegalWord_answersWord why⟩

/-- Settles O8: the four ways to answer a word give its kind of response. -/
theorem everyWordIsAnswered : Obligations.EveryWordIsAnswered := by
  intro s w rest host
  obtain ⟨t, run, r, port, answer⟩ := runCommand_answersWord w (s.take rest)
  refine ⟨t, r, (step_word_presented s w rest host).trans run, port, ?_⟩
  generalize decode w = d at answer
  cases answer with
  | reset => simp
  | absorb fault phase => simpa using ⟨fault, phase⟩
  | finalize fault phase => simpa using ⟨fault, phase⟩
  | fault notReset refused code =>
    rw [State.take_fault, State.take_phase] at refused
    refine ⟨iff_of_false nofun ?_, iff_of_false nofun ?_, fun c h => by rwa [← Response.fault.inj h]⟩
    · rintro (reset | ⟨fault, phase, b, absorb⟩)
      · exact notReset reset
      · obtain ⟨why, illegal⟩ := refused fault phase
        cases absorb.symm.trans illegal
    · rintro ⟨fault, phase, finalize⟩
      obtain ⟨why, illegal⟩ := refused fault phase
      cases finalize.symm.trans illegal

/-- A step takes one event of the host's, if there is one. -/
theorem step_host {s t : State} (h : step s = .next t) : t.host = s.host.tail := by
  cases State.Steps.of_step h <;> simp [*]

/-- Code 3 does not exist (U17). -/
theorem faultCode_ne_three (fault : Option FaultCause) : faultCode fault ≠ 3#2 := by
  obtain _ | _ | _ := fault <;> decide

theorem State.observe_digest_isSome (s : State) : s.observe.digest.isSome = s.observe.digestValid := by
  cases valid : s.digestValid <;> simp [State.observe, valid]

theorem observations_succ {k : Nat} {s t : State} (h : step s = .next t) :
    observations (k + 1) s = t.observe :: observations k t := by
  simp only [observations, h]

/-- Settles O53: by induction on the words; each step answers its word and leaves the other words presented. -/
theorem runObservesAResponsePerWord : Obligations.RunObservesAResponsePerWord := by
  intro words
  induction words with
  | nil => simp [observations]
  | cons w words ih =>
    intro s host
    obtain ⟨t, r, run, port, -⟩ := everyWordIsAnswered s w _ host
    obtain ⟨length, rest⟩ := ih t (by rw [step_host run, host]; rfl)
    rw [List.length_cons, observations_succ run, List.length_cons, length]
    refine ⟨rfl, List.forall_mem_cons.mpr ⟨⟨?_, faultCode_ne_three t.fault, by rw [t.observe_digest_isSome]⟩, rest⟩⟩
    rw [State.observe, port]
    exact Option.some_ne_none r

end Sys2Proof.Machine

/-! PROOFS. The expansion of the command lines and the pseudo-commands, and the assembly errors (R87, R88). -/

namespace Sys2Proof.Machine

theorem expandLine_eq_some {line : SourceLine} {ws : List CmdWord} (inRange : lineInRange line = true)
    (words : expandInRange line = ws) : expandLine line = some ws :=
  (if_pos inRange).trans (congrArg some words)

theorem expandLine_eq_none_iff {line : SourceLine} : expandLine line = none ↔ ¬ lineInRange line = true := by
  simp [expandLine]

theorem lineInRange_absorbN_append (xs ys : List Nat) :
    lineInRange (.absorbN (xs ++ ys)) = true ↔ lineInRange (.absorbN xs) = true ∧ lineInRange (.absorbN ys) = true := by
  simp only [lineInRange, List.all_append, Bool.and_eq_true]

theorem expandInRange_absorbN_append (xs ys : List Nat) :
    expandInRange (.absorbN (xs ++ ys)) = expandInRange (.absorbN xs) ++ expandInRange (.absorbN ys) := by
  simp only [expandInRange, absorbCommands, List.map_append]

@[simp] theorem joinWords_none_right (x : Option (List CmdWord)) : joinWords x none = none := by
  cases x <;> rfl

theorem joinWords_assoc (x y z : Option (List CmdWord)) :
    joinWords (joinWords x y) z = joinWords x (joinWords y z) := by
  cases x <;> cases y <;> cases z <;> simp [joinWords]

/-- A line of operands is in range when both its parts are, and its words are those of the parts (R102). -/
theorem expandLine_absorbN_append (xs ys : List Nat) :
    expandLine (.absorbN (xs ++ ys)) = joinWords (expandLine (.absorbN xs)) (expandLine (.absorbN ys)) := by
  by_cases hx : lineInRange (.absorbN xs) = true
  · by_cases hy : lineInRange (.absorbN ys) = true
    · rw [expandLine_eq_some hx rfl, expandLine_eq_some hy rfl, joinWords]
      exact expandLine_eq_some ((lineInRange_absorbN_append xs ys).mpr ⟨hx, hy⟩) (expandInRange_absorbN_append xs ys)
    · rw [expandLine_eq_none_iff.mpr hy, joinWords_none_right, expandLine_eq_none_iff, lineInRange_absorbN_append]
      exact fun h => hy h.2
  · rw [expandLine_eq_none_iff.mpr hx, joinWords, expandLine_eq_none_iff, lineInRange_absorbN_append]
    exact fun h => hx h.1

/-- Settles O55: the words of the two lines, joined, are those of the one line. -/
theorem chunkingIsInvisible : Obligations.ChunkingIsInvisible := by
  intro xs ys more
  rw [expandProgram, expandProgram, expandProgram, expandLine_absorbN_append, joinWords_assoc]

@[simp] theorem byteInRange_iff (n : Nat) : byteInRange n = true ↔ n < 256 := decide_eq_true_iff

@[simp] theorem wordInRange_iff (n : Nat) : wordInRange n = true ↔ n < 1024 := decide_eq_true_iff

@[simp] theorem asciiInRange_iff (c : Char) : asciiInRange c = true ↔ c.toNat < 128 := decide_eq_true_iff

theorem all_byteInRange_map_toNat (m : List Byte) : (m.map BitVec.toNat).all byteInRange = true := by
  simpa using fun (b : Byte) _ => b.isLt

theorem all_asciiInRange {text : List Char} (ascii : ∀ c ∈ text, c.toNat < 128) : text.all asciiInRange = true := by
  simpa using ascii

/-- The commands of operands that are written bytes absorb those bytes. -/
theorem absorbCommands_map_toNat (m : List Byte) :
    (absorbCommands (m.map BitVec.toNat)).map encode = m.map fun b => encode (.absorb b) := by
  simp [absorbCommands]

theorem absorbCommands_textBytes (text : List Char) :
    (absorbCommands (textBytes text)).map encode = text.map fun c => encode (.absorb (BitVec.ofNat 8 c.toNat)) := by
  simp [absorbCommands, textBytes]

/-- The lines with one byte operand, or a byte and a count, are errors for an operand over 255 (R87). -/
theorem expandLine_absorb_byte_error {b : Nat} (large : 256 ≤ b) :
    expandLine (.absorb b) = none ∧ ∀ k, expandLine (.absorbR b k) = none := by
  simpa [expandLine_eq_none_iff, lineInRange] using large

/-- One operand over 255 spoils a line of operands (R87). -/
theorem expandLine_operands_error {bs : List Nat} (large : ∃ b ∈ bs, 256 ≤ b) :
    expandLine (.absorbN bs) = none ∧ expandLine (.hash bs) = none := by
  simpa [expandLine_eq_none_iff, lineInRange] using large

/-- One character that is not ASCII spoils a text (log entry 11). -/
theorem expandLine_text_error {text : List Char} (large : ∃ c ∈ text, 128 ≤ c.toNat) :
    expandLine (.absorbS text) = none ∧ expandLine (.hashS text) = none := by
  simpa [expandLine_eq_none_iff, lineInRange] using large

theorem expandLine_word_error {v : Nat} (large : 1024 ≤ v) : expandLine (.word v) = none := by
  simpa [expandLine_eq_none_iff, lineInRange] using large

theorem expandLine_absorb (b : Byte) : expandLine (.absorb b.toNat) = some [encode (.absorb b)] :=
  expandLine_eq_some ((byteInRange_iff _).mpr b.isLt) (by rw [expandInRange, BitVec.ofNat_toNat, BitVec.setWidth_eq])

theorem expandLine_word (w : CmdWord) : expandLine (.word w.toNat) = some [w] :=
  expandLine_eq_some ((wordInRange_iff _).mpr w.isLt) (by rw [expandInRange, BitVec.ofNat_toNat, BitVec.setWidth_eq])

theorem expandLine_absorbN (m : List Byte) :
    expandLine (.absorbN (m.map BitVec.toNat)) = some (m.map fun b => encode (.absorb b)) :=
  expandLine_eq_some (all_byteInRange_map_toNat m) (by rw [expandInRange, absorbCommands_map_toNat])

theorem expandLine_absorbS {text : List Char} (ascii : ∀ c ∈ text, c.toNat < 128) :
    expandLine (.absorbS text) = some (text.map fun c => encode (.absorb (BitVec.ofNat 8 c.toNat))) :=
  expandLine_eq_some (all_asciiInRange ascii) (by rw [expandInRange, absorbCommands_textBytes])

theorem expandLine_absorbR (b : Byte) (k : Nat) :
    expandLine (.absorbR b.toNat k) = some (List.replicate k (encode (.absorb b))) :=
  expandLine_eq_some ((byteInRange_iff _).mpr b.isLt) (by
    rw [expandInRange, ← List.map_replicate, absorbCommands_map_toNat, List.map_replicate])

theorem expandLine_hash (m : List Byte) : expandLine (.hash (m.map BitVec.toNat)) = some (messageWords m) :=
  expandLine_eq_some (all_byteInRange_map_toNat m) (by rw [expandInRange, absorbCommands_map_toNat, messageWords])

theorem expandLine_hashS {text : List Char} (ascii : ∀ c ∈ text, c.toNat < 128) :
    expandLine (.hashS text) = some (messageWords (text.map fun c => BitVec.ofNat 8 c.toNat)) :=
  expandLine_eq_some (all_asciiInRange ascii) (by
    rw [expandInRange, absorbCommands_textBytes, messageWords, List.map_map]
    rfl)

/-- Settles O56: the lines in range expand row by row, and those out of range are errors. -/
theorem pseudoCommandExpansions : Obligations.PseudoCommandExpansions :=
  ⟨⟨rfl, rfl, expandLine_absorb⟩, expandLine_word, expandLine_absorbN, fun _ => expandLine_absorbS,
    expandLine_absorbR, expandLine_hash, fun _ => expandLine_hashS, fun _ => expandLine_absorb_byte_error,
    fun _ => expandLine_word_error, fun _ => expandLine_operands_error, fun _ => expandLine_text_error⟩

end Sys2Proof.Machine

/-! PROOFS. The cursor and the bit counter along a run of ABSORB words (R101). -/

namespace Sys2Proof.Machine

theorem State.absorbByte_fill_toNat (b : Byte) (s : State) :
    (s.absorbByte b).fill.toNat = (s.fill.toNat + 1) % 64 := by
  rw [State.absorbByte_fill, BitVec.toNat_add]
  rfl

/-- The bit counter goes up by one block when the byte carries the cursor to 64, and not otherwise (R100). -/
theorem State.absorbByte_bits_toNat (b : Byte) (s : State) :
    (s.absorbByte b).bits.toNat = (s.bits.toNat + 512 * ((s.fill.toNat + 1) / 64)) % 2 ^ 64 := by
  rw [State.absorbByte_bits]
  split
  · next full =>
    rw [full, BitVec.toNat_add]
    rfl
  · next room =>
    have below : s.fill.toNat ≠ 63 := fun full => room (BitVec.eq_of_toNat_eq full)
    omega

/-- One accepted ABSORB word: the cursor and the bit counter move by one byte, and the engine is ready for the next. -/
theorem step_absorb_counts {s : State} {b : Byte} {rest : List HostEvent} (fault : s.fault = none)
    (phase : s.phase = .absorbing) (host : s.host = .command (encode (.absorb b)) :: rest) :
    ∃ t, step s = .next t ∧ t.fill.toNat = (s.fill.toNat + 1) % 64 ∧
      t.bits.toNat = (s.bits.toNat + 512 * ((s.fill.toNat + 1) / 64)) % 2 ^ 64 ∧
      t.phase = .absorbing ∧ t.fault = none ∧ t.host = rest :=
  ⟨(s.take rest).absorbByte b, (step_encode host).trans (exec_absorb_effect b fault phase),
    State.absorbByte_fill_toNat b _, State.absorbByte_bits_toNat b _, (State.absorbByte_phase b _).trans phase,
    (State.absorbByte_fault b _).trans fault, State.absorbByte_host b _⟩

/-- Settles O17, by induction on the bytes: the blocks the first word completes and those the others complete add up. -/
theorem absorbSequenceCounts : Obligations.AbsorbSequenceCounts := by
  intro bs
  induction bs with
  | nil =>
    intro s rest fault phase host
    refine ⟨s, runSteps_zero s, ?_, ?_, phase, fault, host⟩
    · rw [List.length_nil]
      omega
    · rw [List.length_nil]
      omega
  | cons b bs ih =>
    intro s rest fault phase host
    obtain ⟨u, first, fill, bits, uPhase, uFault, uHost⟩ := step_absorb_counts fault phase host
    obtain ⟨t, run, tFill, tBits, kept⟩ := ih u rest uFault uPhase uHost
    refine ⟨t, (runSteps_next _ _ _ first).trans run, ?_, ?_, kept⟩
    · rw [tFill, fill, List.length_cons]
      omega
    · rw [tBits, bits, fill, List.length_cons]
      omega

end Sys2Proof.Machine

/-! PROOFS. Word arithmetic and the round functions: the value of a sum (R120), the bits of the rotation (R121), of `Ch`
and `Maj` (R123, R124) and of the four sigma functions (R125 to R128). -/

namespace Sys2Proof.Machine

@[simp] theorem toNat_add32 (x y : Word) : (add32 x y).toNat = (x.toNat + y.toNat) % 2 ^ 32 := BitVec.toNat_add x y

/-- Settles O33: addition of words is addition of bit vectors. -/
theorem addModulo32 : Obligations.AddModulo32 := toNat_add32

/-- The right shift gives the bits that stay below 32, the left shift those that wrap around. -/
theorem getLsbD_rotr (x : Word) {n k : Nat} (lo : 1 ≤ n) (hi : n ≤ 31) (hk : k < 32) :
    (rotr x n).getLsbD k = x.getLsbD ((k + n) % 32) := by
  rw [rotr, BitVec.getLsbD_or, BitVec.getLsbD_ushiftRight, BitVec.getLsbD_shiftLeft, Nat.add_comm n k]
  by_cases stays : k + n < 32
  · rw [Nat.mod_eq_of_lt stays]
    simp [show k < 32 - n by omega]
  · rw [BitVec.getLsbD_of_ge x (k + n) (by omega), show (k + n) % 32 = k - (32 - n) by omega]
    simp [hk, show ¬ k < 32 - n by omega]

/-- Settles O34, bit by bit: a bit of the rotation comes from the right shift or from the left shift. -/
theorem rotationMovesBits : Obligations.RotationMovesBits := fun x _ _ => getLsbD_rotr x

/-- The bits that the shift moves in at the top are zero (R122). -/
theorem getLsbD_shr (x : Word) (n k : Nat) : (shr x n).getLsbD k = (decide (k + n < 32) && x.getLsbD (k + n)) := by
  rw [shr, BitVec.getLsbD_ushiftRight, Nat.add_comm n k]
  by_cases inside : k + n < 32
  · simp [inside]
  · simp [inside, BitVec.getLsbD_of_ge x (k + n) (by omega)]

theorem getLsbD_ch (x y z : Word) {k : Nat} (hk : k < 32) :
    (ch x y z).getLsbD k = if x.getLsbD k then y.getLsbD k else z.getLsbD k := by
  rw [ch, BitVec.getLsbD_xor, BitVec.getLsbD_and, BitVec.getLsbD_and, BitVec.getLsbD_not]
  cases x.getLsbD k <;> simp [hk]

/-- Three votes: the exclusive or of the pairs is the majority. -/
theorem xor_pairs_eq_majority :
    ∀ p q r : Bool, ((p && q) ^^ (p && r) ^^ (q && r)) = decide (2 ≤ p.toNat + q.toNat + r.toNat) := by decide

theorem getLsbD_maj (x y z : Word) (k : Nat) :
    (maj x y z).getLsbD k = decide (2 ≤ (x.getLsbD k).toNat + (y.getLsbD k).toNat + (z.getLsbD k).toNat) := by
  rw [maj, BitVec.getLsbD_xor, BitVec.getLsbD_xor, BitVec.getLsbD_and, BitVec.getLsbD_and, BitVec.getLsbD_and]
  exact xor_pairs_eq_majority _ _ _

/-- Settles O35: `Ch` by the selecting bit, `Maj` by the votes of the three bits. -/
theorem chooseAndMajorityPerBit : Obligations.ChooseAndMajorityPerBit :=
  fun x y z k hk => ⟨getLsbD_ch x y z hk, getLsbD_maj x y z k⟩

/-- A bit of an upper-case sigma function: three rotations (R125, R126). -/
theorem getLsbD_xor_rotr_rotr_rotr (x : Word) {l m n k : Nat} (hl : 1 ≤ l ∧ l ≤ 31) (hm : 1 ≤ m ∧ m ≤ 31)
    (hn : 1 ≤ n ∧ n ≤ 31) (hk : k < 32) :
    (rotr x l ^^^ rotr x m ^^^ rotr x n).getLsbD k =
      (x.getLsbD ((k + l) % 32) ^^ x.getLsbD ((k + m) % 32) ^^ x.getLsbD ((k + n) % 32)) := by
  rw [BitVec.getLsbD_xor, BitVec.getLsbD_xor, getLsbD_rotr x hl.1 hl.2 hk, getLsbD_rotr x hm.1 hm.2 hk,
    getLsbD_rotr x hn.1 hn.2 hk]

/-- A bit of a lower-case sigma function: two rotations and a shift (R127, R128). -/
theorem getLsbD_xor_rotr_rotr_shr (x : Word) {l m k : Nat} (n : Nat) (hl : 1 ≤ l ∧ l ≤ 31)
    (hm : 1 ≤ m ∧ m ≤ 31) (hk : k < 32) :
    (rotr x l ^^^ rotr x m ^^^ shr x n).getLsbD k =
      (x.getLsbD ((k + l) % 32) ^^ x.getLsbD ((k + m) % 32) ^^ (decide (k + n < 32) && x.getLsbD (k + n))) := by
  rw [BitVec.getLsbD_xor, BitVec.getLsbD_xor, getLsbD_rotr x hl.1 hl.2 hk, getLsbD_rotr x hm.1 hm.2 hk, getLsbD_shr]

/-- Settles O36: the four functions with their amounts. -/
theorem sigmaBits : Obligations.SigmaBits := fun x _ hk =>
  ⟨getLsbD_xor_rotr_rotr_rotr x (by decide) (by decide) (by decide) hk,
    getLsbD_xor_rotr_rotr_rotr x (by decide) (by decide) (by decide) hk,
    getLsbD_xor_rotr_rotr_shr x 3 (by decide) (by decide) hk,
    getLsbD_xor_rotr_rotr_shr x 10 (by decide) (by decide) hk⟩

end Sys2Proof.Machine

/-! PROOFS. The parts of `Compress()` on the registers: the recurrence of the schedule (R130), one round (R132, R133),
the feed-forward (R134), and the whole (R135 to R137). -/

namespace Sys2Proof.Machine

theorem expandScheduleWord_getElem_new (j : Fin 48) (sc : Scratch) :
    (expandScheduleWord j sc).w[j.val + 16] =
      scheduleSum sc.w[j.val] sc.w[j.val + 9] sc.w[j.val + 1] sc.w[j.val + 14] :=
  Vector.getElem_set_self (by omega)

theorem expandScheduleWord_getElem_old (j : Fin 48) (sc : Scratch) {i : Nat} (h : i < 64) (old : i < j.val + 16) :
    (expandScheduleWord j sc).w[i] = sc.w[i] :=
  Vector.getElem_set_ne (by omega) h old.ne'

theorem expandScheduleWord_holdsLoaded {buf : Block} {sc : Scratch} (j : Fin 48) (held : sc.HoldsLoaded buf 16) :
    (expandScheduleWord j sc).HoldsLoaded buf 16 := fun i hi => by
  rw [expandScheduleWord_getElem_old j sc (by omega) (by omega), held i hi]

/-- The first `k` expanded words obey the recurrence (R130). -/
def Scratch.ObeysRecurrence (k : Nat) (sc : Scratch) : Prop :=
  ∀ j (h : j < 48), j < k → sc.w[j + 16] = scheduleSum sc.w[j] sc.w[j + 9] sc.w[j + 1] sc.w[j + 14]

/-- The words the recurrence reads are older than the word it gives, so that one turn of the loop writes none of those
the earlier turns have read or written. -/
theorem expandScheduleWord_obeysRecurrence {sc : Scratch} (j : Fin 48) (obeys : sc.ObeysRecurrence j.val) :
    (expandScheduleWord j sc).ObeysRecurrence (j.val + 1) := by
  intro i h hi
  rw [expandScheduleWord_getElem_old j sc (i := i) (by omega) (by omega),
    expandScheduleWord_getElem_old j sc (i := i + 9) (by omega) (by omega),
    expandScheduleWord_getElem_old j sc (i := i + 1) (by omega) (by omega),
    expandScheduleWord_getElem_old j sc (i := i + 14) (by omega) (by omega)]
  obtain earlier | rfl : i < j.val ∨ i = j.val := by omega
  · rw [expandScheduleWord_getElem_old j sc (by omega) (by omega), obeys i h earlier]
  · exact expandScheduleWord_getElem_new j sc

theorem loadSchedule_holdsLoaded (buf : Block) (sc : Scratch) : (loadSchedule buf sc).HoldsLoaded buf 16 :=
  forAll_induct expandScheduleWord (fun _ sc' => sc'.HoldsLoaded buf 16) _ (loadScheduleWords_holdsLoaded buf sc)
    fun j _ held => expandScheduleWord_holdsLoaded j held

theorem loadSchedule_obeysRecurrence (buf : Block) (sc : Scratch) : (loadSchedule buf sc).ObeysRecurrence 48 :=
  forAll_induct expandScheduleWord (fun k sc' => sc'.ObeysRecurrence k) _
    (fun _ _ below => absurd below (Nat.not_lt_zero _))
    fun j _ obeys => expandScheduleWord_obeysRecurrence j obeys

/-- Settles O40: the expansion loop keeps the loaded words, and each turn adds one word that obeys the recurrence. -/
theorem scheduleRecurrence : Obligations.ScheduleRecurrence := fun buf sc =>
  ⟨fun i => loadSchedule_holdsLoaded buf sc i i.isLt, fun j h => loadSchedule_obeysRecurrence buf sc j h h⟩

theorem toNat_roundT1 (e f g h k w : Word) :
    (roundT1 e f g h k w).toNat =
      (h.toNat + (bigSigma1 e).toNat + (ch e f g).toNat + k.toNat + w.toNat) % 2 ^ 32 := by
  simp [roundT1]

theorem toNat_roundT2 (a b c : Word) :
    (roundT2 a b c).toNat = ((bigSigma0 a).toNat + (maj a b c).toNat) % 2 ^ 32 :=
  toNat_add32 _ _

theorem compressRound_a (t : Fin 64) (sc : Scratch) :
    (compressRound t sc).a =
      add32 (roundT1 sc.e sc.f sc.g sc.h (kRom t) sc.w[t.val]) (roundT2 sc.a sc.b sc.c) := rfl

theorem compressRound_e (t : Fin 64) (sc : Scratch) :
    (compressRound t sc).e = add32 sc.d (roundT1 sc.e sc.f sc.g sc.h (kRom t) sc.w[t.val]) := rfl

/-- Settles O41: `a` takes `T1 + T2`, `e` takes `d + T1`, and the others move. -/
theorem roundUpdatesWorkingRegisters : Obligations.RoundUpdatesWorkingRegisters := by
  intro t sc
  refine ⟨?_, ?_, rfl, rfl, rfl, rfl, rfl, rfl, compressRound_w t sc⟩
  · rw [compressRound_a, toNat_add32, toNat_roundT1, toNat_roundT2, ← Nat.add_mod, ← Nat.add_assoc]
  · rw [compressRound_e, toNat_add32, toNat_roundT1, Nat.add_mod_mod]
    simp only [Nat.add_assoc]

/-- The eight sums of the feed-forward, by place. -/
theorem feedForward_getElem (hash : HashWords) (sc : Scratch) (i : Nat) (h : i < 8) :
    (feedForward hash sc)[i] =
      add32 hash[i] ([sc.a, sc.b, sc.c, sc.d, sc.e, sc.f, sc.g, sc.h].getD i 0#32) := by
  interval_cases i <;> rfl

/-- Settles O42: each hash word is a sum modulo 2^32, of itself and the register in its place. -/
theorem feedForwardAddsModulo32 : Obligations.FeedForwardAddsModulo32 := fun hash sc i h => by
  rw [feedForward_getElem hash sc i h, toNat_add32]

/-- Settles O43: the loops on the registers run the function's schedule and rounds. -/
theorem compressIsFunctionOfBlockAndHash : Obligations.CompressIsFunctionOfBlockAndHash := compressRun_hash

end Sys2Proof.Machine

/-! PROOFS. The digest is the hash words, most significant byte first (R168). -/

namespace Sys2Proof.Machine

/-- Settles O44: byte `4i + j` is taken from word `i`, shifted down by its `24 - 8j` lower bits. -/
theorem digestIsBigEndian : Obligations.DigestIsBigEndian := by
  intro hash i j hi hj
  have word : (4 * i + j) / 4 = i := by omega
  have position : (4 * i + j) % 4 = j := by omega
  simp only [serialize_getElem, word, position, BitVec.toNat_setWidth, BitVec.toNat_ushiftRight,
    Nat.shiftRight_eq_div_pow]

end Sys2Proof.Machine

/-! PROOFS. The padded message is whole blocks (R167). -/

namespace Sys2Proof.Machine

theorem length_wholeBlocks (bytes : List Byte) : (wholeBlocks bytes).length = bytes.length / 64 := by
  rw [wholeBlocks, List.length_map, List.length_range]

/-- The padding ends a block: the message's own when its tail leaves room for the length field, else the next. -/
theorem length_paddedMessage_eq_mul (m : List Byte) :
    (paddedMessage m).length = 64 * (m.length / 64 + if m.length % 64 < 56 then 1 else 2) := by
  rw [length_paddedMessage]
  split
  · next short => rw [length_add_paddingZeros_short short, Nat.mul_add]
  · next long => rw [length_add_paddingZeros_long (Nat.le_of_not_lt long), Nat.mul_add]

/-- The padding has the fewest zero bytes that end a block: it has fewer than 64 (R167). -/
theorem paddingZeros_least {len z : Nat} (fewer : z < paddingZeros len) : (len + 1 + z + 8) % 64 ≠ 0 := by
  rw [paddingZeros] at fewer
  omega

/-- Settles O54: the length is a multiple of 64, its quotient the number of blocks. -/
theorem paddedMessageBlocks : Obligations.PaddedMessageBlocks := by
  refine fun m => ⟨?_, ?_, fun z => paddingZeros_least⟩
  · rw [length_paddedMessage_eq_mul, Nat.mul_mod_right]
  · rw [length_wholeBlocks, length_paddedMessage_eq_mul, Nat.mul_div_cancel_left _ (by decide)]

end Sys2Proof.Machine

/-! PROOFS. The message length in bits that FINALIZE stores (R165). -/

namespace Sys2Proof.Machine

theorem totalBits_eq_ofNat (bits : BitVec 64) (n : BitVec 6) :
    totalBits bits n = BitVec.ofNat 64 (bits.toNat + 8 * n.toNat) := by
  apply BitVec.eq_of_toNat_eq
  simp only [totalBits, BitVec.toNat_add, BitVec.toNat_mul, BitVec.toNat_setWidth, BitVec.toNat_ofNat]
  omega

/-- Settles O21: `8 * n` is below 512, so it fits under `bits`, whose last multiple of 512 is `2^64 - 512`. -/
theorem totalBitsDoNotCarry : Obligations.TotalBitsDoNotCarry := by
  intro bits n whole
  have tail : 8 * n.toNat < 512 := by omega
  have sum : (totalBits bits n).toNat = bits.toNat + 8 * n.toNat := by
    rw [totalBits_eq_ofNat, BitVec.toNat_ofNat]
    omega
  rw [sum]
  exact ⟨rfl, by omega, by omega⟩

end Sys2Proof.Machine

/-! PROOFS. The blocks FINALIZE compresses, byte by byte, and what it answers (R160 to R169). -/

namespace Sys2Proof.Machine

/-- The buffered bytes, the padding byte, and zeros as far as `hi` (R162 to R164). -/
theorem bufZeroFill_bufStore_getElem (buf : Block) (n : BitVec 6) {hi k : Nat} (h : k < 64) (below : k < hi) :
    (bufZeroFill (bufStore buf n 0x80#8) (n.toNat + 1) hi)[k] =
      if k < n.toNat then buf[k] else if k = n.toNat then 0x80#8 else 0x00#8 := by
  rw [bufZeroFill_getElem]
  obtain tail | rfl | zero := Nat.lt_trichotomy k n.toNat
  · rw [if_neg (by omega), bufStore_other _ _ _ k h tail.ne, if_pos tail]
  · rw [if_neg (by omega), bufStore_same, if_neg (Nat.lt_irrefl _), if_pos rfl]
  · rw [if_pos ⟨zero, below⟩, if_neg zero.not_gt, if_neg zero.ne']

/-- `buf` with the length stored in it is the block that agrees with `buf` below index 56 and has the length's bytes
from there on (R166). -/
theorem bufStoreLength_totalBits_eq {blk buf : Block} {bits : BitVec 64} {n : BitVec 6}
    (before : ∀ k (h : k < 64), k < 56 → blk[k] = buf[k])
    (field : ∀ k (h : k < 64), 56 ≤ k →
      blk[k] = (BitVec.ofNat 64 (bits.toNat + 8 * n.toNat)).extractLsb' (56 - 8 * (k - 56)) 8) :
    bufStoreLength buf (totalBits bits n) = blk := by
  apply Vector.ext
  intro k h
  rw [bufStoreLength_getElem]
  split
  · next last => rw [field k h last, totalBits_eq_ofNat, lengthByte]
  · next first => exact (before k h (Nat.lt_of_not_le first)).symm

/-- An accepted FINALIZE answers the serialised hash words its last compression leaves, and keeps them on the digest
output (R168, R169). -/
theorem exec_finalize_answers {s : State} {hash : HashWords} (fault : s.fault = none) (phase : s.phase = .absorbing)
    (final : s.padAndCompress.hash = hash) :
    ∃ t : State, exec .finalize s = .next t ∧ t.hash = hash ∧
      t.response = some (.digest (serialize t.hash)) ∧ t.phase = .finalized ∧ t.fault = none ∧
      t.digestValid = true ∧ t.digestOutput = serialize t.hash := by
  refine ⟨s.finalizeMessage, exec_finalize_effect fault phase, ?_, ?_, s.finalizeMessage_phase, ?_,
    State.finalizeMessage_digestValid fault, ?_⟩
  · rw [State.finalizeMessage_hash, final]
  · rw [State.finalizeMessage_response, State.finalizeMessage_hash]
  · rw [State.finalizeMessage_fault, fault]
  · rw [State.finalizeMessage_digestOutput fault, State.finalizeMessage_hash]

/-- Settles O18: the described block is the buffer that the stores of FINALIZE leave to its one compression. -/
theorem finalizeOneBlock : Obligations.FinalizeOneBlock := by
  intro s blk fault phase short layout
  apply exec_finalize_answers fault phase
  rw [State.padAndCompress_hash_short s short]
  congr 1
  refine bufStoreLength_totalBits_eq (fun k h below => ?_) fun k h field => ?_
  · rw [layout k h, bufZeroFill_bufStore_getElem _ _ h below, if_pos below]
  · rw [layout k h, if_neg (by omega), if_neg (by omega), if_neg (by omega)]

/-- Settles O19: the first block is the padded tail, the second zeros and the length. -/
theorem finalizeTwoBlocks : Obligations.FinalizeTwoBlocks := by
  intro s first second fault phase long layout₁ layout₂
  apply exec_finalize_answers fault phase
  rw [State.padAndCompress_hash_long s long]
  congr 1
  · congr 1
    apply Vector.ext
    intro k h
    rw [layout₁ k h, bufZeroFill_bufStore_getElem _ _ h h]
  · refine bufStoreLength_totalBits_eq (fun k h below => ?_) fun k h field => ?_
    · rw [layout₂ k h, if_pos below, bufZeroFill_getElem, if_pos ⟨Nat.zero_le k, below⟩]
    · rw [layout₂ k h, if_neg (Nat.not_lt.mpr field)]

end Sys2Proof.Machine

/-! PROOFS. The digest output while it stays valid (R180). -/

namespace Sys2Proof.Machine

theorem State.digestValid_iff {s : State} : s.digestValid = true ↔ s.phase = .finalized ∧ s.fault = none :=
  decide_eq_true_iff

theorem State.digestOutput_of_digestValid {s : State} (valid : s.digestValid = true) :
    s.digestOutput = serialize s.hash :=
  if_pos valid

/-- No step that writes the hash words leads from a valid digest to a valid digest: the two resets end the validity, and
ABSORB and FINALIZE are accepted only before it. -/
theorem step_hash_of_digestValid {s t : State} (h : step s = .next t) (before : s.digestValid = true)
    (after : t.digestValid = true) : t.hash = s.hash := by
  obtain ⟨finalized, -⟩ := State.digestValid_iff.mp before
  obtain ⟨stays, -⟩ := State.digestValid_iff.mp after
  cases State.Steps.of_step h with
  | idle _ => rfl
  | hardwareReset _ => cases stays
  | reset _ => cases stays
  | absorb _ _ absorbing => cases absorbing.symm.trans finalized
  | finalize _ _ absorbing => cases absorbing.symm.trans finalized
  | refuse _ _ => rfl
  | raise _ _ _ => rfl

/-- Settles O28: a valid output is the serialised hash words, and these do not change. -/
theorem digestOutputIsHeld : Obligations.DigestOutputIsHeld := by
  intro s t h before after
  rw [State.digestOutput_of_digestValid after, State.digestOutput_of_digestValid before,
    step_hash_of_digestValid h before after]

end Sys2Proof.Machine

/-! PROOFS. The hexadecimal form of a digest, two characters a byte (R182, R183, R185). -/

namespace Sys2Proof.Machine

theorem toNat_highNibble (b : Byte) : (b.extractLsb' 4 4).toNat = b.toNat / 16 := by
  rw [BitVec.extractLsb'_toNat, Nat.shiftRight_eq_div_pow]
  omega

theorem toNat_lowNibble (b : Byte) : (b.extractLsb' 0 4).toNat = b.toNat % 16 := by
  rw [BitVec.extractLsb'_toNat, Nat.shiftRight_zero]

theorem highNibble_append_lowNibble (b : Byte) : b.extractLsb' 4 4 ++ b.extractLsb' 0 4 = b :=
  (BitVec.extractLsb'_append_extractLsb'_eq_extractLsb' rfl).trans BitVec.extractLsb'_eq_self

/-- `hexDigit v` is the `v`-th character of the string of digits (R182). -/
theorem toNat_hexDigit : ∀ v : BitVec 4, (hexDigit v).toNat = ("0123456789abcdef".toList.getD v.toNat '?').toNat := by
  decide

/-- `hexDigit` answers an ASCII code of `0-9` or `a-f` (R183). -/
theorem hexDigit_range : ∀ v : BitVec 4,
    (0x30 ≤ (hexDigit v).toNat ∧ (hexDigit v).toNat ≤ 0x39) ∨
    (0x61 ≤ (hexDigit v).toNat ∧ (hexDigit v).toNat ≤ 0x66) := by
  decide

theorem hexDigit_injective : ∀ v w : BitVec 4, hexDigit v = hexDigit w → v = w := by
  decide

theorem toHex_getElem_even (d : Digest) (k : Nat) (h : k < 32) :
    (toHex d)[2 * k] = hexDigit (d[k].extractLsb' 4 4) := by
  have byte : 2 * k / 2 = k := by omega
  rw [toHex_getElem, if_pos (Nat.mul_mod_right 2 k)]
  simp only [byte]

theorem toHex_getElem_odd (d : Digest) (k : Nat) (h : k < 32) :
    (toHex d)[2 * k + 1] = hexDigit (d[k].extractLsb' 0 4) := by
  have byte : (2 * k + 1) / 2 = k := by omega
  rw [toHex_getElem, if_neg (by omega)]
  simp only [byte]

/-- Every character is the hex digit of some nibble. -/
theorem toHex_getElem_eq_hexDigit (d : Digest) (p : Nat) (h : p < 64) : ∃ v, (toHex d)[p] = hexDigit v := by
  rw [toHex_getElem]
  split
  · exact ⟨_, rfl⟩
  · exact ⟨_, rfl⟩

/-- Each byte is read back from its two characters. -/
theorem toHex_injective {d e : Digest} (same : toHex d = toHex e) : d = e := by
  apply Vector.ext
  intro k h
  have high : d[k].extractLsb' 4 4 = e[k].extractLsb' 4 4 :=
    hexDigit_injective _ _ (by rw [← toHex_getElem_even d k h, ← toHex_getElem_even e k h, same])
  have low : d[k].extractLsb' 0 4 = e[k].extractLsb' 0 4 :=
    hexDigit_injective _ _ (by rw [← toHex_getElem_odd d k h, ← toHex_getElem_odd e k h, same])
  rw [← highNibble_append_lowNibble d[k], high, low, highNibble_append_lowNibble]

/-- Settles O45: the characters `2k` and `2k + 1` are the digits of the quotient and the remainder of byte `k` by 16. -/
theorem hexRendersNibbles : Obligations.HexRendersNibbles := fun d k h =>
  ⟨by rw [toHex_getElem_even d k h, toNat_hexDigit, toNat_highNibble],
   by rw [toHex_getElem_odd d k h, toNat_hexDigit, toNat_lowNibble]⟩

/-- Settles O46: hex digits are in range, and tell nibbles apart. -/
theorem hexFormAndInjectivity : Obligations.HexFormAndInjectivity := by
  refine ⟨fun d p h => ?_, fun _ _ => toHex_injective⟩
  obtain ⟨v, digit⟩ := toHex_getElem_eq_hexDigit d p h
  rw [digit]
  exact hexDigit_range v

end Sys2Proof.Machine

/-! PROOFS. RESET from any state: its whole effect (R190), and that it leaves no trace of what came before (R191). -/

namespace Sys2Proof.Machine

/-- Settles O11: RESET writes the five registers and the response; an absorbing engine shows no valid digest. -/
theorem resetLoadsInitialState : Obligations.ResetLoadsInitialState := fun s =>
  ⟨_, exec_reset s, rfl, State.digestValid_of_absorbing rfl⟩

/-- Two engines that are reset agree in all that is readable, whatever they held: RESET writes every register that is
read, and at cursor 0 no byte of the buffer is. -/
theorem State.loadInitial_sameReadable {s t : State} (host : s.host = t.host) (r : Response) :
    (s.loadInitial.respond r).SameReadable (t.loadInitial.respond r) where
  hash := rfl
  phase := rfl
  fault := rfl
  response := rfl
  host := host
  fill := fun _ => rfl
  bits := fun _ => rfl
  buf := fun _ k _ hk => absurd hk (Nat.not_lt_zero k)

/-- Settles O13: both states are the initial one, as far as a later command reads. -/
theorem resetForgetsThePast : Obligations.ResetForgetsThePast := fun s t host =>
  ⟨_, _, exec_reset s, exec_reset t, State.loadInitial_sameReadable host .ok⟩

end Sys2Proof.Machine

/-! PROOFS. A run of commands records no fault exactly along the engine's legal life (R192, R209, R242). -/

namespace Sys2Proof.Machine

theorem faultCode_eq_zero_iff {fault : Option FaultCause} : faultCode fault = 0#2 ↔ fault = none := by
  obtain _ | _ | _ := fault <;> decide

/-- Only a RESET goes on from a delivered digest. -/
theorem inLifecycle_finalized_cons {i : Instr} (notReset : i ≠ .reset) (more : List Instr) :
    inLifecycle .finalized (i :: more) = false := by
  cases i with
  | reset => exact absurd rfl notReset
  | absorb b => rfl
  | finalize => rfl

/-- The command `i` takes `s` to `t` along the legal life, or leaves that life and records a fault in `t`. -/
def State.LegalOrFaulted (s : State) (i : Instr) (t : State) : Prop :=
  (t.fault = none ∧ ∀ more, inLifecycle s.phase (i :: more) = inLifecycle t.phase more) ∨
  (t.fault ≠ none ∧ ∀ more, inLifecycle s.phase (i :: more) = false)

/-- Of the checks before ABSORB and FINALIZE, with no fault recorded only the one of the phase can fail (R207). -/
theorem State.whenAbsorbing_legalOrFaulted {s : State} {effect : State → State} {i : Instr} (noFault : s.fault = none)
    (notReset : i ≠ .reset) (accepted : s.phase = .absorbing → s.LegalOrFaulted i (effect s)) :
    s.LegalOrFaulted i (s.whenAbsorbing effect) := by
  obtain ⟨c, fault, -⟩ | ⟨-, phase, e⟩ | ⟨-, phase, e⟩ := State.whenAbsorbing_cases effect s
  · cases noFault.symm.trans fault
  · rw [e]
    exact .inr ⟨Option.some_ne_none _, phase ▸ inLifecycle_finalized_cons notReset⟩
  · rw [e]
    exact accepted phase

theorem exec_legalOrFaulted {s t : State} {i : Instr} (noFault : s.fault = none) (run : exec i s = .next t) :
    s.LegalOrFaulted i t := by
  cases i with
  | reset =>
    rw [exec_reset, Host.Outcome.next.injEq] at run
    subst run
    exact .inl ⟨rfl, fun more => by cases s.phase <;> rfl⟩
  | absorb b =>
    rw [exec_absorb, Host.Outcome.next.injEq] at run
    subst run
    refine State.whenAbsorbing_legalOrFaulted noFault nofun fun phase => .inl ⟨?_, fun more => ?_⟩
    · rw [State.absorbByte_fault, noFault]
    · rw [State.absorbByte_phase, phase, inLifecycle]
  | finalize =>
    rw [exec_finalize, Host.Outcome.next.injEq] at run
    subst run
    refine State.whenAbsorbing_legalOrFaulted noFault nofun fun phase => .inl ⟨?_, fun more => ?_⟩
    · rw [State.finalizeMessage_fault, noFault]
    · rw [State.finalizeMessage_phase, phase, inLifecycle]

theorem step_legalOrFaulted {s t : State} {i : Instr} {rest : List HostEvent} (noFault : s.fault = none)
    (host : s.host = .command (encode i) :: rest) (next : step s = .next t) : s.LegalOrFaulted i t :=
  exec_legalOrFaulted (s := s.take rest) noFault ((step_encode host).symm.trans next)

/-- Settles O52, by induction on the commands: each goes on with the legal life, or leaves it and shows a fault. -/
theorem faultFreeIsLegalLife : Obligations.FaultFreeIsLegalLife := by
  intro commands
  induction commands with
  | nil =>
    intro s _ _
    simp [observations, inLifecycle]
  | cons i commands ih =>
    intro s noFault host
    obtain ⟨t, next⟩ := step_total s
    have shown : t.observe.fault = 0#2 ↔ t.fault = none := faultCode_eq_zero_iff
    rw [List.length_cons, observations_succ next, List.forall_mem_cons, shown]
    obtain ⟨legal, life⟩ | ⟨faulted, life⟩ := step_legalOrFaulted noFault host next
    · rw [life, ← ih t legal (by rw [step_host next, host]; rfl)]
      exact and_iff_right legal
    · rw [life]
      exact iff_of_false (fun clean => faulted clean.1) Bool.false_ne_true

end Sys2Proof.Machine

/-! PROOFS. Every compression runs its 64 rounds, and the blocks a command compresses follow the plan that its kind, the
fault, the phase and the cursor fix (R193). -/

namespace Sys2Proof.Machine

theorem runRounds_t (hash : HashWords) (sc : Scratch) : (runRounds hash sc).t = 64#7 :=
  forAll_induct compressRound (fun k sc' => sc'.t = BitVec.ofNat 7 k) _ rfl fun _ _ _ => rfl

theorem compressRun_t (sc : Scratch) (hash : HashWords) (buf : Block) : (compressRun sc hash buf).1.t = 64#7 := by
  unfold compressRun
  exact runRounds_t hash _

/-- The block that the sources make of the data of the command `i` and the state `s`. -/
def plannedBlock (i : Instr) (s : State) (sources : Fin 64 → ByteSource) : Block :=
  blockOf fun k => sourceByte i s k (sources k)

theorem plannedBlock_getElem (i : Instr) (s : State) (sources : Fin 64 → ByteSource) (k : Nat) (h : k < 64) :
    (plannedBlock i s sources)[k] = sourceByte i s ⟨k, h⟩ (sources ⟨k, h⟩) :=
  blockOf_getElem _ k h

theorem runPlan_singleton (sources : Fin 64 → ByteSource) (i : Instr) (s : State) :
    runPlan [sources] i s = compress s.hash (plannedBlock i s sources) := rfl

theorem runPlan_pair (first second : Fin 64 → ByteSource) (i : Instr) (s : State) :
    runPlan [first, second] i s =
      compress (compress s.hash (plannedBlock i s first)) (plannedBlock i s second) := rfl

/-- The operand at the end of the held bytes: the buffer that a completing ABSORB compresses (R100). -/
theorem plannedBlock_absorb {s : State} (b : Byte) (full : s.fill = 63#6) :
    plannedBlock (.absorb b) s (fun k => if k.val = 63 then .operand else .held) = bufStore s.buf s.fill b := by
  apply Vector.ext
  intro k h
  rw [plannedBlock_getElem, full]
  by_cases last : k = 63
  · subst last
    exact (bufStore_same s.buf 63#6 b).symm
  · rw [if_neg last, bufStore_other s.buf 63#6 b k h last]
    rfl

/-- The tail, the padding byte and what follows them, at a position up to which FINALIZE has filled in zeros. -/
theorem sourceByte_tailThen_eq_bufZeroFill {s : State} {rest : Fin 64 → ByteSource} {hi k : Nat} (h : k < 64)
    (below : k < hi) (zero : rest ⟨k, h⟩ = .zero) :
    sourceByte .finalize s ⟨k, h⟩ (tailThen s.fill rest ⟨k, h⟩) =
      (bufZeroFill (bufStore s.buf s.fill 0x80#8) (s.fill.toNat + 1) hi)[k] := by
  rw [bufZeroFill_bufStore_getElem _ _ h below, tailThen]
  split
  · rfl
  · split
    · rfl
    · rw [zero]
      rfl

/-- The padded tail that ends in zeros: the first of two padding blocks (R164). -/
theorem plannedBlock_tailThen_zero (s : State) :
    plannedBlock .finalize s (tailThen s.fill fun _ => .zero) =
      bufZeroFill (bufStore s.buf s.fill 0x80#8) (s.fill.toNat + 1) 64 := by
  apply Vector.ext
  intro k h
  rw [plannedBlock_getElem, sourceByte_tailThen_eq_bufZeroFill h h rfl]

/-- A block whose last eight sources are the length field, and which agrees with `buf` before them (R166). -/
theorem plannedBlock_eq_bufStoreLength {s : State} {sources : Fin 64 → ByteSource} {buf : Block}
    (before : ∀ k (h : k < 64), k < 56 → sourceByte .finalize s ⟨k, h⟩ (sources ⟨k, h⟩) = buf[k])
    (field : ∀ k (h : k < 64), 56 ≤ k → sources ⟨k, h⟩ = .length (k - 56)) :
    plannedBlock .finalize s sources = bufStoreLength buf (totalBits s.bits s.fill) := by
  apply Vector.ext
  intro k h
  rw [plannedBlock_getElem, bufStoreLength_getElem]
  split
  · next last =>
    rw [field k h last]
    rfl
  · next first => exact before k h (Nat.lt_of_not_le first)

theorem lengthOrZero_of_lt {k : Nat} (h : k < 64) (first : k < 56) : lengthOrZero ⟨k, h⟩ = .zero := if_pos first

theorem lengthOrZero_of_le {k : Nat} (h : k < 64) (last : 56 ≤ k) : lengthOrZero ⟨k, h⟩ = .length (k - 56) :=
  if_neg (Nat.not_lt.mpr last)

/-- The one padding block of a tail that leaves room for the length (R163). -/
theorem plannedBlock_tailThen_lengthOrZero {s : State} (short : s.fill.toNat < 56) :
    plannedBlock .finalize s (tailThen s.fill lengthOrZero) =
      bufStoreLength (bufZeroFill (bufStore s.buf s.fill 0x80#8) (s.fill.toNat + 1) 56) (totalBits s.bits s.fill) := by
  refine plannedBlock_eq_bufStoreLength (fun k h first => ?_) fun k h last => ?_
  · exact sourceByte_tailThen_eq_bufZeroFill h first (lengthOrZero_of_lt h first)
  · rw [tailThen, if_neg (short.trans_le last).not_gt, if_neg (short.trans_le last).ne', lengthOrZero_of_le h last]

/-- The second of two padding blocks, whatever the first one left in the buffer (R164). -/
theorem plannedBlock_lengthOrZero (s : State) (buf : Block) :
    plannedBlock .finalize s lengthOrZero = bufStoreLength (bufZeroFill buf 0 56) (totalBits s.bits s.fill) := by
  refine plannedBlock_eq_bufStoreLength (fun k h first => ?_) fun k h last => lengthOrZero_of_le h last
  rw [lengthOrZero_of_lt h first, bufZeroFill_getElem, if_pos ⟨Nat.zero_le k, first⟩]
  rfl

/-- An accepted ABSORB compresses the planned block, or none (R100). -/
theorem State.absorbByte_hash_eq_runPlan (b : Byte) (s : State) :
    (s.absorbByte b).hash = runPlan (compressionPlan (.absorb b) none .absorbing s.fill) (.absorb b) s := by
  rw [State.absorbByte_hash, compressionPlan]
  split
  · next full => rw [runPlan_singleton, plannedBlock_absorb b full]
  · rfl

/-- An accepted FINALIZE compresses the planned padding blocks (R163, R164). -/
theorem State.padAndCompress_hash_eq_runPlan (s : State) :
    s.padAndCompress.hash = runPlan (compressionPlan .finalize none .absorbing s.fill) .finalize s := by
  rw [compressionPlan]
  split
  · next short =>
    rw [State.padAndCompress_hash_short s short, runPlan_singleton, plannedBlock_tailThen_lengthOrZero short]
  · next long =>
    rw [State.padAndCompress_hash_long s (Nat.le_of_not_lt long), runPlan_pair, plannedBlock_tailThen_zero,
      plannedBlock_lengthOrZero]

/-- A refused command compresses nothing, as its plan says; an accepted one has its effect. -/
theorem State.whenAbsorbing_hash_eq_runPlan {s : State} {effect : State → State} {i : Instr}
    (accepted : (effect s).hash = runPlan (compressionPlan i none .absorbing s.fill) i s) :
    (s.whenAbsorbing effect).hash = runPlan (compressionPlan i s.fault s.phase s.fill) i s := by
  obtain ⟨c, fault, e⟩ | ⟨-, phase, e⟩ | ⟨fault, phase, e⟩ := State.whenAbsorbing_cases effect s
  · rw [e, State.refuse_hash, compressionPlan_refused i _ _ _ (.inl (fault ▸ Option.some_ne_none c)), runPlan_nil]
  · rw [e, State.raise_hash, compressionPlan_refused i _ _ _ (.inr phase), runPlan_nil]
  · rw [e, accepted, fault, phase]

theorem exec_hash_eq_runPlan {s t : State} {i : Instr} (notReset : i ≠ .reset) (run : exec i s = .next t) :
    t.hash = runPlan (compressionPlan i s.fault s.phase s.fill) i s := by
  cases i with
  | reset => exact absurd rfl notReset
  | absorb b =>
    rw [exec_absorb, Host.Outcome.next.injEq] at run
    exact run ▸ State.whenAbsorbing_hash_eq_runPlan (s.absorbByte_hash_eq_runPlan b)
  | finalize =>
    rw [exec_finalize, Host.Outcome.next.injEq] at run
    exact run ▸ State.whenAbsorbing_hash_eq_runPlan
      ((State.finalizeMessage_hash s).trans s.padAndCompress_hash_eq_runPlan)

theorem exec_reset_hash {s t : State} (run : exec .reset s = .next t) : t.hash = iv := by
  rw [exec_reset, Host.Outcome.next.injEq] at run
  exact run ▸ rfl

end Sys2Proof.Machine

/-! PROOFS. Two engines given commands of one kind take the same branch and answer alike (R193). -/

namespace Sys2Proof.Machine

/-- Two engines agree in what the controller decides by and in the kind of their response. -/
structure State.SameControl (s t : State) : Prop where
  phase : s.phase = t.phase
  fault : s.fault = t.fault
  kind : s.response.map Response.kind = t.response.map Response.kind
  cursor : s.phase = .absorbing → s.fill = t.fill

/-- The checks of R207 read `fault` and `phase` alone, so the two engines pass or fail them together. -/
theorem State.whenAbsorbing_sameControl {s t : State} {effect effect' : State → State} (phases : s.phase = t.phase)
    (faults : s.fault = t.fault) (cursors : s.fill = t.fill) (accepted : (effect s).SameControl (effect' t)) :
    (s.whenAbsorbing effect).SameControl (t.whenAbsorbing effect') := by
  obtain ⟨c, fault, e⟩ | ⟨fault, phase, e⟩ | ⟨fault, phase, e⟩ := State.whenAbsorbing_cases effect s
  · rw [e, State.whenAbsorbing_faulted effect' t c (faults ▸ fault)]
    exact ⟨phases, faults, rfl, fun _ => cursors⟩
  · rw [e, State.whenAbsorbing_finalized effect' t (faults ▸ fault) (phases ▸ phase)]
    exact ⟨phases, rfl, rfl, fun _ => cursors⟩
  · rw [e, State.whenAbsorbing_effect effect' t (faults ▸ fault) (phases ▸ phase)]
    exact accepted

theorem State.absorbByte_sameControl {s t : State} (phases : s.phase = t.phase) (faults : s.fault = t.fault)
    (cursors : s.fill = t.fill) (b c : Byte) : (s.absorbByte b).SameControl (t.absorbByte c) :=
  ⟨by simp [phases], by simp [faults], by simp, fun _ => by simp [cursors]⟩

theorem State.finalizeMessage_sameControl {s t : State} (faults : s.fault = t.fault) :
    s.finalizeMessage.SameControl t.finalizeMessage :=
  ⟨by simp, by simp [faults], by simp [Response.kind], fun absorbing => by simp at absorbing⟩

theorem sameKind_cases : ∀ {i j : Instr}, sameKind i j = true →
    (i = .reset ∧ j = .reset) ∨ (∃ b c, i = .absorb b ∧ j = .absorb c) ∨ (i = .finalize ∧ j = .finalize)
  | .reset, .reset, _ => .inl ⟨rfl, rfl⟩
  | .absorb b, .absorb c, _ => .inr (.inl ⟨b, c, rfl, rfl⟩)
  | .finalize, .finalize, _ => .inr (.inr ⟨rfl, rfl⟩)

theorem exec_sameControl {s t s' t' : State} {i j : Instr} (same : sameKind i j = true) (phases : s.phase = t.phase)
    (faults : s.fault = t.fault) (cursors : s.fill = t.fill) (run : exec i s = .next s') (run' : exec j t = .next t') :
    s'.SameControl t' := by
  obtain ⟨rfl, rfl⟩ | ⟨b, c, rfl, rfl⟩ | ⟨rfl, rfl⟩ := sameKind_cases same
  · rw [exec_reset, Host.Outcome.next.injEq] at run run'
    subst run run'
    exact ⟨rfl, rfl, rfl, fun _ => rfl⟩
  · rw [exec_absorb, Host.Outcome.next.injEq] at run run'
    subst run run'
    exact State.whenAbsorbing_sameControl phases faults cursors (State.absorbByte_sameControl phases faults cursors b c)
  · rw [exec_finalize, Host.Outcome.next.injEq] at run run'
    subst run run'
    exact State.whenAbsorbing_sameControl phases faults cursors (State.finalizeMessage_sameControl faults)

theorem eq_reset_iff_of_sameKind {i j : Instr} (same : sameKind i j = true) : i = .reset ↔ j = .reset := by
  obtain ⟨rfl, rfl⟩ | ⟨b, c, rfl, rfl⟩ | ⟨rfl, rfl⟩ := sameKind_cases same <;> simp

/-- Settles O32: the two engines take the same branch, and the plan of each, a function of what they agree in, is the
plan of the other. -/
theorem controlIgnoresData : Obligations.ControlIgnoresData := by
  refine ⟨fun s t s' t' i j same phases faults cursors run run' => ?_, compressRun_t⟩
  obtain ⟨phase, fault, kind, cursor⟩ := exec_sameControl same phases faults cursors run run'
  have resets := eq_reset_iff_of_sameKind same
  refine ⟨phase, fault, kind, cursor, fun reset => ?_, fun notReset => ⟨exec_hash_eq_runPlan notReset run, ?_⟩⟩
  · exact ⟨exec_reset_hash (reset ▸ run), exec_reset_hash (resets.mp reset ▸ run')⟩
  · rw [compressionPlan_sameKind i j same, phases, faults, cursors]
    exact exec_hash_eq_runPlan (fun reset => notReset (resets.mpr reset)) run'

end Sys2Proof.Machine

/-! PROOFS. The step by the word presented, branch by branch (R207), and what a word answered with a fault leaves
(R202 to R205). -/

namespace Sys2Proof.Machine

/-- Settles O5: the presented word is taken, decoded, and its command executed. -/
theorem stepRunsDecodedCommand : Obligations.StepRunsDecodedCommand := fun s w rest i host decoded =>
  (step_word_presented s w rest host).trans (runCommand_command w i (s.take rest) decoded)

theorem step_illegal_word {s : State} {w : CmdWord} {rest : List HostEvent} {why : Reject}
    (host : s.host = .command w :: rest) (decoded : decode w = .illegal why) :
    step s = .next (s.take rest).illegalWord :=
  (step_word_presented s w rest host).trans (runCommand_illegal w why (s.take rest) decoded)

theorem State.illegalWord_faulted {s : State} {c : FaultCause} (fault : s.fault = some c) :
    s.illegalWord = s.refuse c := by
  simp only [State.illegalWord, fault]

theorem State.illegalWord_noFault {s : State} (fault : s.fault = none) : s.illegalWord = s.raise .illegalCommand := by
  simp only [State.illegalWord, fault]

/-- Fault-stop refuses every command but RESET (R205). -/
theorem exec_faulted {s : State} {c : FaultCause} {i : Instr} (fault : s.fault = some c) (notReset : i ≠ .reset) :
    exec i s = .next (s.refuse c) := by
  cases i with
  | reset => exact absurd rfl notReset
  | absorb b => rw [exec_absorb, State.whenAbsorbing_faulted _ s c fault]
  | finalize => rw [exec_finalize, State.whenAbsorbing_faulted _ s c fault]

/-- A delivered digest leaves only RESET to be accepted (R202). -/
theorem exec_finalized {s : State} {i : Instr} (fault : s.fault = none) (phase : s.phase = .finalized)
    (notReset : i ≠ .reset) : exec i s = .next (s.raise .invalidState) := by
  cases i with
  | reset => exact absurd rfl notReset
  | absorb b => rw [exec_absorb, State.whenAbsorbing_finalized _ s fault phase]
  | finalize => rw [exec_finalize, State.whenAbsorbing_finalized _ s fault phase]

/-- Settles O23: the checks before ABSORB and FINALIZE find no fault, and the phase FINALIZED. -/
theorem invalidStateAfterFinalize : Obligations.InvalidStateAfterFinalize := fun _ _ => exec_finalized

/-- The recorded fault is looked at first, before the word is known to be a command (R205, R207). -/
theorem step_faulted {s : State} {c : FaultCause} {w : CmdWord} {rest : List HostEvent} (fault : s.fault = some c)
    (host : s.host = .command w :: rest) (notReset : decode w ≠ .command .reset) :
    step s = .next ((s.take rest).refuse c) := by
  cases decoded : decode w with
  | command i =>
    rw [stepRunsDecodedCommand s w rest i host decoded]
    exact exec_faulted fault fun reset => notReset (reset ▸ decoded)
  | illegal why =>
    rw [step_illegal_word host decoded]
    exact congrArg _ (State.illegalWord_faulted fault)

/-- Settles O22: the word is refused, and an engine with a fault shows no valid digest. -/
theorem faultStopRefusesAllButReset : Obligations.FaultStopRefusesAllButReset := fun s c _ rest fault host notReset =>
  ⟨(s.take rest).refuse c, step_faulted fault host notReset, rfl, by simp [State.digestValid, fault]⟩

/-- Settles O6: RESET passes every check; each other word stops at the first check it fails, and has its effect when it
fails none. -/
theorem stepFollowsCheckOrder : Obligations.StepFollowsCheckOrder := by
  rintro s w rest host _ rfl
  have runs (i : Instr) (decoded : decode w = .command i) : step s = exec i (s.take rest) :=
    stepRunsDecodedCommand s w rest i host decoded
  refine ⟨runs .reset, ?_, ?_, ?_, ?_, ?_⟩
  · intro c notReset fault
    exact step_faulted fault host notReset
  · intro why fault illegal
    exact (step_illegal_word host illegal).trans (congrArg _ (State.illegalWord_noFault fault))
  · intro i fault phase decoded notReset
    exact (runs i decoded).trans (exec_finalized fault phase notReset)
  · intro b fault phase decoded
    exact (runs _ decoded).trans (exec_absorb_effect b fault phase)
  · intro fault phase decoded
    exact (runs _ decoded).trans (exec_finalize_effect fault phase)

/-- Settles O24: an accepted command answers OK or a digest; a refused word, and one that raises a fault, leave every
register but `fault`. -/
theorem faultsArePrecise : Obligations.FaultsArePrecise := by
  intro s t w rest c presented h response
  cases State.Steps.of_step h with
  | idle host => cases presented.symm.trans host
  | hardwareReset host => cases presented.symm.trans host
  | reset _ => simp at response
  | absorb _ _ _ => simp at response
  | finalize _ _ _ => simp at response
  | refuse _ _ => exact ⟨rfl, rfl, rfl, rfl, rfl, rfl⟩
  | raise _ _ _ => exact ⟨rfl, rfl, rfl, rfl, rfl, rfl⟩

end Sys2Proof.Machine

/-! PROOFS. The step with nothing presented (R213). -/

namespace Sys2Proof.Machine

/-- Settles O9: with an empty host list the step is the idle step, which writes only the response port. -/
theorem idleHoldsState : Obligations.IdleHoldsState := step_nothing_presented

end Sys2Proof.Machine
